-- ==== Sys2Proof/Word.lean ====
section
/-! DEFINITION. The two widths of the block: 16-bit registers, commands and results, and 8-bit input elements (00_scope.md R7). -/

namespace Sys2Proof

/-- `ACC_WIDTH`, `RESULT_WIDTH` and `CMD_WIDTH` of R7 are all 16. -/
abbrev Word := BitVec 16

/-- `DATA_WIDTH` of R7: one input element, "8-bit unsigned values". -/
abbrev Byte := BitVec 8

end Sys2Proof
end

