-- ==== Sys2Proof/Syntax.lean ====
section
/-! DEFINITION. The commands of the block and the interactions of its host. -/

namespace Sys2Proof

/-- The three commands of spec/opcode_table.json. The operand of `update` is the 16-bit value
`d = zext_16(cmd[7:0])` of 30_encoding.md R47; that it lies in [0, 255] is checked in WellFormed.lean. -/
inductive Instr where
  | nop
  | clear
  | update (d : Word)
deriving DecidableEq, Repr

/-- What the host may do to the block, the rows of the host table (70_reset_and_hazards.md R93).
The rows CLEAR, UPDATE, NOP and "reserved word" are all `command` with their word. The events of a run
(R94) are `command` and `reset`; `readResult` is the read of R93's fifth row, which stands "any time
between events". -/
inductive Interaction where
  /-- A command word is presented and accepted (10_state.md R25). -/
  | command (cmd : Word)
  /-- The reset event (10_state.md R26, R89); it has no encoding (30_encoding.md R53). -/
  | reset
  /-- The host reads the `result` port (10_state.md R24, R28). -/
  | readResult
deriving DecidableEq, Repr

end Sys2Proof
end

