-- ==== Sys2Proof/WellFormed.lean ====
section
/-! DEFINITION. When an instruction is one the encoding can express (30_encoding.md R47). -/

namespace Sys2Proof

/-- The one check of the command set: UPDATE's operand lies in [0, 255] (R47). NOP and CLEAR have no operand. -/
def Instr.wellFormed : Instr → Bool
  | .nop => true
  | .clear => true
  | .update d => decide (d.toNat ≤ 255)

/-- An admitted command of R51. -/
abbrev WellFormed (i : Instr) : Prop := i.wellFormed = true

end Sys2Proof
end

