-- ==== Sys2Proof/Decode.lean ====
section
/-! DEFINITION. Decoding and encoding of command words (30_encoding.md R45 to R52), and the layout of an opcode-table row. -/

namespace Sys2Proof

/-- `OP = cmd[15:8]` (R45). -/
def opField (cmd : Word) : Byte := cmd.extractLsb' 8 8

/-- `D = cmd[7:0]` (R45). -/
def dataField (cmd : Word) : Byte := cmd.extractLsb' 0 8

/-- `zext_16(v)` (00_scope.md R8). -/
def zext16 (v : Byte) : Word := v.setWidth 16

/-- The two classes of reserved words (R49). -/
inductive ReservedClass where
  /-- `OP` in 0x03 to 0xFF, any `D`. -/
  | reservedOpcode
  /-- Non-zero `D` on NOP or CLEAR. -/
  | nonzeroData
deriving DecidableEq, Repr

/-- What a word decodes to (R50): a command, or RESERVED(cmd) with the class R49 puts it in. -/
inductive Decoded where
  | command (i : Instr)
  | reserved (c : ReservedClass) (cmd : Word)
deriving DecidableEq, Repr

/-- The class R49 gives a word that no row of R48 selects. -/
def reservedClass (cmd : Word) : ReservedClass :=
  if opField cmd = 0x00 ∨ opField cmd = 0x01 then .nonzeroData else .reservedOpcode

/-- The decoder (R50), total on all 65536 words. -/
def decode (cmd : Word) : Decoded :=
  if opField cmd = 0x00 ∧ dataField cmd = 0x00 then .command .nop
  else if opField cmd = 0x01 ∧ dataField cmd = 0x00 then .command .clear
  else if opField cmd = 0x02 then .command (.update (zext16 (dataField cmd)))
  else .reserved (reservedClass cmd) cmd

/-- A word that matches no row of R48 (R49). -/
def isReserved (cmd : Word) : Bool :=
  match decode cmd with
  | .command _ => false
  | .reserved _ _ => true

/-- `match` and `mask` of one row of the opcode map (R48). -/
structure OpcodeRow where
  matchBits : Word
  maskBits  : Word
deriving DecidableEq, Repr

/-- The row of R48 an instruction belongs to. -/
def Instr.row : Instr → OpcodeRow
  | .nop => ⟨0x0000, 0xFFFF⟩
  | .clear => ⟨0x0100, 0xFFFF⟩
  | .update _ => ⟨0x0200, 0xFF00⟩

/-- R48: "A word selects a command exactly when `(cmd & mask) = match`". -/
abbrev OpcodeRow.Selects (r : OpcodeRow) (cmd : Word) : Prop := cmd &&& r.maskBits = r.matchBits

/-- The encoder `enc` (R51). It means something on well-formed instructions only. -/
def encode : Instr → Word
  | .nop => 0x0000
  | .clear => 0x0100
  | .update d => 0x0200 ||| d

/-- The command word of an opcode-table row whose bits are `w`: one 16-bit word, bit 0 least
significant (R45), the bits above `nbits` zero. -/
def tableWord (nbits w : Nat) : Word := BitVec.ofNat 16 (w % 2 ^ nbits)

/-- The instruction the decoder reads from a table row's bits. A command is exactly one 16-bit word
(R46), so more than 16 bits are no command. -/
def decodeTableWord (nbits w : Nat) : Option Instr :=
  if nbits ≤ 16 ∧ w < 2 ^ nbits then
    match decode (tableWord nbits w) with
    | .command i => some i
    | .reserved _ _ => none
  else none

end Sys2Proof
end

