-- ==== Sys2Proof/Config.lean ====
section
/-! DEFINITION. The block's parameters (00_scope.md R7). Widths are in the types of Word.lean; the block has no free value (10_state.md R30), so nothing here is opaque. -/

namespace Sys2Proof

/-- `MODULUS` (R7, R60): 255, "never 256". -/
def Config.modulus : Nat := 255

/-- The two values the OPEN parameter `RESULT_BYTE_ORDER` can take (20_memory.md R32): which byte of
`result` lies at the lower address. -/
inductive ResultByteOrder where
  | highFirst   -- `b` at the lower address
  | lowFirst    -- `a` at the lower address
deriving DecidableEq, Repr

/-- The OPEN parameters of a platform that maps `result` into a byte-addressed space (R32, R38).
The block alone needs neither; a definition about such a platform takes this as an argument, so that
a statement about it holds for every value. -/
structure Config.Platform where
  /-- `BASE_ADDRESS` -/
  baseAddress : Nat
  /-- `RESULT_BYTE_ORDER` -/
  resultByteOrder : ResultByteOrder
deriving DecidableEq, Repr

end Sys2Proof
end

