-- ==== Sys2Proof/Machine/State.lean ====
section
/-! DEFINITION. The state of the block (10_state.md), the host's side of its interface, and the two ways a model step can end without a next state (60_exceptions.md R76, R77). -/

namespace Sys2Proof.Machine

/-- A register cell: a 16-bit value, or `none` for `⊥`, "holds no value" (10_state.md R22). The
absence is the spec's own state of the cell, not a missing reset value. -/
abbrev Cell := Option Word

/-- The block's state is `a` and `b` (10_state.md R14, R15, R30). `pending` and `reads` are the
model's own: they hold the host's side of the interface (log 1, log 2), so that a step is a function of
the state alone. -/
structure State where
  /-- First accumulator: the running sum of the accepted bytes mod 255 (R14). -/
  a : Cell
  /-- Second accumulator: the running sum of the successive new values of `a` mod 255 (R15). -/
  b : Cell
  /-- DESIGN CHOICE (log 1): what the host is yet to do to the block, oldest first (R36, R93). -/
  pending : List Interaction
  /-- DESIGN CHOICE (log 2): the values the host has got back from reading `result`, oldest first (R93). -/
  reads : List Word
deriving DecidableEq, Repr

/-- Why a step ends in a fault. -/
inductive Fault where
  /-- R28, R77: `result` was read while `a` or `b` is `⊥`. Raised by `readPort`. Safe: the hardware
  drives some pattern, and the model gives no value. -/
  | undefinedResult
deriving DecidableEq, Repr

/-- Why the model gives no meaning. -/
inductive Refusal where
  /-- Raised by an arm of `exec` that has no meaning yet; no arm is left so. Safe. -/
  | notModelled (mnemonic : String)
  /-- R49, R76: the word `cmd` is reserved. Raised by `acceptCommand`. Safe: the reference hardware
  leaves `a` and `b` unchanged, and no claim rests on it. -/
  | reservedCommand (cmd : Word)
  /-- 41_accumulate.md R67, U3: a host asks for more bytes than its sequence has. Raised by
  `fletcher16Commands`, never by a step. Safe: the block is given nothing. -/
  | countBeyondData (count length : Nat)
deriving DecidableEq, Repr

/-- The block right after reset (R29), with a host that has nothing pending and has read nothing. -/
def State.reset : State := { a := some 0x0000, b := some 0x0000, pending := [], reads := [] }

/-- The block at power-up, before the first reset or CLEAR (R22, R91). -/
def State.powerUp : State := { a := none, b := none, pending := [], reads := [] }

end Sys2Proof.Machine
end

