-- ==== Sys2Proof/Machine/Operands.lean ====
section
/-! DEFINITION. The implicit operands of UPDATE and of the result port: both accumulators together (30_encoding.md R47, 10_state.md R22, R24). The explicit operand is assembled in Decode.lean. -/

namespace Sys2Proof.Machine

/-- The values of `(a, b)`, or nothing when either cell is `⊥`: the test `a == ⊥ or b == ⊥` that
UPDATE (R62) and the read of `result` (R28) share. -/
def State.accumulators (s : State) : Option (Word × Word) :=
  match s.a, s.b with
  | some a, some b => some (a, b)
  | _, _ => none

end Sys2Proof.Machine
end

