-- ==== Sys2Proof/Machine/Ops.lean ====
section
/-! DEFINITION. The named operations the meanings share: writing the accumulators, the reduction and its two stages, the result port, and the reset. The block takes no exception (60_exceptions.md R75, R80, R81), so there is no exception entry and no return. -/

namespace Sys2Proof.Machine

/-- `a <- v.1 ; b <- v.2`, together (00_scope.md R9). -/
def State.writeAccumulators (s : State) (v : Cell × Cell) : State := { s with a := v.1, b := v.2 }

/-- `red255(x) = x mod 255`, of an exact sum (41_accumulate.md R60). -/
def red255 (x : Nat) : Nat := x % Config.modulus

/-- Stage A (R61): `a' = red255(a + d)`, the sum exact. -/
def stageA (a d : Word) : Word := BitVec.ofNat 16 (red255 (a.toNat + d.toNat))

/-- Stage B (R61): `b' = red255(b + a')`, with the NEW `a`. -/
def stageB (b a' : Word) : Word := BitVec.ofNat 16 (red255 (b.toNat + a'.toNat))

/-- The reduction pipeline (R61) on values: stage B consumes stage A's output. -/
def reducePair (d : Word) (v : Word × Word) : Word × Word :=
  let a' := stageA v.1 d
  let b' := stageB v.2 a'
  (a', b')

/-- What UPDATE writes (R62): "no value in, no value out", else the pipeline's two values. -/
def accumulate (d : Word) : Option (Word × Word) → Cell × Cell
  | none => (none, none)
  | some v => (some (reducePair d v).1, some (reducePair d v).2)

/-- The packing `((b << 8) | a)[15:0]` of the result port (10_state.md R24, 20_memory.md R32). -/
def packResult (v : Word × Word) : Word := (v.2 <<< 8) ||| v.1

/-- The result port (R24); an observation while a cell is `⊥` is a fault (R28, R77). -/
def readPort (s : State) : Except Fault Word :=
  match s.accumulators with
  | some v => .ok (packResult v)
  | none => .error .undefinedResult

/-- What reset and CLEAR write (R29, 40_control.md R58, R59): both registers to 0. -/
def State.zeroAccumulators (s : State) : State := s.writeAccumulators (some 0x0000, some 0x0000)

end Sys2Proof.Machine
end

