-- ==== Sys2Proof/Machine/Accumulate.lean ====
section
/-! DEFINITION. The accumulate command UPDATE (41_accumulate.md). -/

namespace Sys2Proof.Machine

/-- UPDATE d (R62): add one input byte. -/
def execUpdate (d : Word) (s : State) : Host.Outcome State Fault Refusal :=
  .next (s.writeAccumulators (accumulate d s.accumulators))

end Sys2Proof.Machine
end

