-- ==== Sys2Proof/Machine/Control.lean ====
section
/-! DEFINITION. The control commands NOP and CLEAR (40_control.md). -/

namespace Sys2Proof.Machine

/-- NOP (R57): `a`, `b` unchanged, including `⊥`. -/
def execNop (s : State) : Host.Outcome State Fault Refusal := .next s

/-- CLEAR (R58): `a <- 0x0000`, `b <- 0x0000`, from any state. -/
def execClear (s : State) : Host.Outcome State Fault Refusal := .next s.zeroAccumulators

end Sys2Proof.Machine
end

