-- ==== Sys2Proof/Machine/Interact.lean ====
section
/-! DEFINITION. What the block does at each interaction of the host table (70_reset_and_hazards.md R93), and how simultaneous arrivals become interactions (60_exceptions.md R79). -/

namespace Sys2Proof.Machine

/-- Acceptance of one command word (10_state.md R25): decoded by R50, applied as one atomic step; a
reserved word is refused by name (R76). -/
def acceptCommand (cmd : Word) (s : State) : Host.Outcome State Fault Refusal :=
  match decode cmd with
  | .command i => exec i s
  | .reserved _ w => .refused (.reservedCommand w)

/-- The reset event (R89): `(a, b) <- (0, 0)` from any state, `⊥` included. -/
def acceptReset (s : State) : Host.Outcome State Fault Refusal := .next s.zeroAccumulators

/-- A read of `result` (R24, R28): no side effect on `a` or `b`; the host gets the value back. -/
def acceptRead (s : State) : Host.Outcome State Fault Refusal :=
  match readPort s with
  | .ok v => .next { s with reads := s.reads ++ [v] }
  | .error f => .fault f

/-- One interaction of the host with the block (R93). -/
def interact (e : Interaction) (s : State) : Host.Outcome State Fault Refusal :=
  match e with
  | .command cmd => acceptCommand cmd s
  | .reset => acceptReset s
  | .readResult => acceptRead s

/-- What enters the event list when the host may assert reset and may present a command at once
(R79): reset wins and the command is discarded, "simply not in the list". -/
def arriving (resetAsserted : Bool) (presented : Option Word) : Option Interaction :=
  if resetAsserted then some .reset else presented.map .command

/-- The host hands the block one command word, to be accepted before anything else pending. -/
def presentCommand (cmd : Word) (s : State) : State := { s with pending := .command cmd :: s.pending }

/-- DEDUCED (log 4), R88: with nothing pending, `a` and `b` keep their values. Otherwise the oldest
interaction is taken off and applied (R36). -/
def takeNext (s : State) : Host.Outcome State Fault Refusal :=
  match s.pending with
  | [] => .next s
  | e :: rest => interact e { s with pending := rest }

end Sys2Proof.Machine
end

