-- ==== Sys2Proof/Machine/Step.lean ====
section
/-! DEFINITION. One step of the machine: the host's oldest pending interaction is applied (20_memory.md R36). -/

namespace Sys2Proof.Machine

/-- One step; the block fetches nothing itself (10_state.md R18), so what runs is what the host presents. -/
def step (s : State) : Host.Outcome State Fault Refusal := takeNext s

/-- DESIGN CHOICE (log 1): the host presents the table row's word as its very next interaction. -/
def State.withFetchWord (s : State) (nbits w : Nat) : State := presentCommand (tableWord nbits w) s

end Sys2Proof.Machine
end

