-- ==== Sys2Proof/Machine/Run.lean ====
section
/-! DEFINITION. Runs: lists of interactions applied in order, with the two marks a run can carry and its observation (60_exceptions.md R76, R77, R80, 70_reset_and_hazards.md R94). -/

namespace Sys2Proof.Machine

/-- `k` steps of the machine, stopping at the first fault or refusal. -/
def stepMany : Nat → State → Host.Outcome State Fault Refusal
  | 0, s => .next s
  | k + 1, s =>
    match step s with
    | .next t => stepMany k t
    | .fault f => .fault f
    | .refused x => .refused x

/-- A run so far: the state after the last interaction applied (R80), the fault recorded, if any (R77),
and the refusal mark, if any (R76). -/
structure RunRecord where
  state   : State
  fault   : Option Fault
  refusal : Option Refusal
deriving DecidableEq, Repr

/-- A run that starts in a state, with no mark. -/
def RunRecord.start (s : State) : RunRecord := { state := s, fault := none, refusal := none }

/-- One interaction more. A fault is recorded and the run goes on (R77: "a later reset or CLEAR does not
clear the record"). DEDUCED (log 6): after a refusal nothing more is applied, since "the model says
nothing about the run" (R76). -/
def RunRecord.apply (r : RunRecord) (e : Interaction) : RunRecord :=
  match r.refusal with
  | some _ => r
  | none =>
    match interact e r.state with
    | .next s => { r with state := s }
    | .fault f => { r with fault := some (r.fault.getD f) }
    | .refused x => { r with refusal := some x }

/-- A list of interactions, applied one at a time in list order (20_memory.md R36). -/
def RunRecord.run (r : RunRecord) (es : List Interaction) : RunRecord := es.foldl RunRecord.apply r

/-- R94: a run is *good* "when no event was refused and no fault was recorded". -/
abbrev RunRecord.Good (r : RunRecord) : Prop := r.fault = none ∧ r.refusal = none

/-- R94: the observation is the pair `(a, b)`; "Only a good run has an observation". DESIGN CHOICE (log 19):
the end of a run is no read of `result`, so a run that ends with a register at `⊥` and never read it stays good,
records no fault, and its observation is the pair with the `⊥` in it. -/
def RunRecord.observation (r : RunRecord) : Option (Cell × Cell) :=
  if r.Good then some (r.state.a, r.state.b) else none

/-- The `result` seen at the end of a run: a good run whose registers hold values has one. DESIGN CHOICE
(log 19): a good run that ends with a register at `⊥` has none, and no fault is recorded for it. -/
def RunRecord.result (r : RunRecord) : Option Word :=
  if r.Good then (readPort r.state).toOption else none

end Sys2Proof.Machine
end

