-- ==== Sys2Proof/Machine/Checksum.lean ====
section
/-! DEFINITION. The source's Fletcher-16 function as the spec transcribes it (00_scope.md R11), and the command sequence that stands for it (41_accumulate.md R66, R67). No step calls these: they are what statements compare runs with. -/

namespace Sys2Proof.Machine

/-- The source's loop over the bytes from given `a` and `b` (R11), on exact naturals. -/
def sourceLoop : List Byte → Nat × Nat → Nat × Nat
  | [], v => v
  | d :: ds, (a, b) =>
    let a := (a + d.toNat) % 255
    let b := (b + a) % 255
    sourceLoop ds (a, b)

/-- The source's `fletcher16(data, count)` (R11), under its precondition `count ≤ length(data)`. -/
def fletcher16 (data : List Byte) (count : Nat) : Nat :=
  let v := sourceLoop (data.take count) (0, 0)
  (v.2 <<< 8) ||| v.1

/-- One UPDATE per byte, in index order (20_memory.md R31). -/
def updateCommands (data : List Byte) : List Interaction :=
  data.map fun d => .command (encode (.update (zext16 d)))

/-- CLEAR and then the UPDATEs (R66). -/
def checksumCommands (data : List Byte) : List Interaction :=
  .command (encode .clear) :: updateCommands data

/-- The command sequence of `fletcher16(data, count)` (R66); with `count > length(data)` "It has no
command sequence, and a host model refuses it" (R67, U3). -/
def fletcher16Commands (data : List Byte) (count : Nat) : Except Refusal (List Interaction) :=
  if count ≤ data.length then .ok (checksumCommands (data.take count))
  else .error (.countBeyondData count data.length)

end Sys2Proof.Machine
end

