-- ==== Sys2Proof/Machine/Assembler.lean ====
section
/-! DEFINITION. The assembler and the listing form (30_encoding.md R53 to R56), over text as a list of characters. What R53 leaves open of the text's form is in log 12. -/

namespace Sys2Proof.Machine

/-- Why a line is rejected (R54, and malformed text). -/
inductive AsmError where
  | malformedText        -- an unclosed or ill-formed quotation
  | malformedOperand     -- no byte in any of R53's three forms
  | operandOutOfRange    -- a value above 255
  | missingOperand
  | operandNotAllowed    -- an operand on `nop`, `clear` or `reset`
  | nonAscii             -- a quoted character outside ASCII (R53, R55)
  | unknownMnemonic
deriving DecidableEq, Repr

/-- The pieces of a line. -/
inductive Token where
  | word (cs : List Char)
  | char (c : Char)
  | str (cs : List Char)
  | comma
deriving DecidableEq, Repr

/-- Where the scan of a line stands; collected characters are in reverse. -/
inductive LexMode where
  | between
  | inWord (rev : List Char)
  | charOpen
  | charBody (c : Char)
  | inString (rev : List Char)
deriving DecidableEq, Repr

/-- The single quotation mark. -/
def singleQuote : Char := Char.ofNat 39

/-- The double quotation mark. -/
def doubleQuote : Char := Char.ofNat 34

/-- DESIGN CHOICE (log 12): blanks are space, tab and carriage return. -/
def isBlank (c : Char) : Bool := c.toNat = 32 ∨ c.toNat = 9 ∨ c.toNat = 13

/-- A line's tokens. `;` begins a comment to the end of the line (R53); DESIGN CHOICE (log 12): not inside quotes. -/
def lex : LexMode → List Char → Option (List Token)
  | .between, [] => some []
  | .inWord rev, [] => some [.word rev.reverse]
  | .charOpen, [] => none
  | .charBody _, [] => none
  | .inString _, [] => none
  | .between, c :: cs =>
    if c = ';' then some []
    else if isBlank c then lex .between cs
    else if c = ',' then (lex .between cs).map (.comma :: ·)
    else if c = singleQuote then lex .charOpen cs
    else if c = doubleQuote then lex (.inString []) cs
    else lex (.inWord [c]) cs
  | .inWord rev, c :: cs =>
    if c = ';' then some [.word rev.reverse]
    else if isBlank c then (lex .between cs).map (.word rev.reverse :: ·)
    else if c = ',' then (lex .between cs).map fun ts => .word rev.reverse :: .comma :: ts
    else if c = singleQuote then (lex .charOpen cs).map (.word rev.reverse :: ·)
    else if c = doubleQuote then (lex (.inString []) cs).map (.word rev.reverse :: ·)
    else lex (.inWord (c :: rev)) cs
  | .charOpen, c :: cs => lex (.charBody c) cs
  | .charBody x, c :: cs => if c = singleQuote then (lex .between cs).map (.char x :: ·) else none
  | .inString rev, c :: cs =>
    if c = doubleQuote then (lex .between cs).map (.str rev.reverse :: ·) else lex (.inString (c :: rev)) cs

/-- The value of a decimal or hexadecimal digit. -/
def digitValue (c : Char) : Option Nat :=
  let n := c.toNat
  if 48 ≤ n ∧ n ≤ 57 then some (n - 48)
  else if 65 ≤ n ∧ n ≤ 70 then some (n - 55)
  else if 97 ≤ n ∧ n ≤ 102 then some (n - 87)
  else none

/-- A digit string's value in a base, after the digits worth `acc`. -/
def digitsValue (base : Nat) : List Char → Nat → Option Nat
  | [], acc => some acc
  | c :: cs, acc =>
    match digitValue c with
    | some v => if v < base then digitsValue base cs (acc * base + v) else none
    | none => none

/-- A number in decimal, or in hexadecimal with `0x` (R53). -/
def numberValue : List Char → Option Nat
  | [] => none
  | '0' :: 'x' :: h :: hs => digitsValue 16 (h :: hs) 0
  | c :: cs => digitsValue 10 (c :: cs) 0

/-- A quoted character's byte: its ASCII code (R53, R55). -/
def asciiByte (c : Char) : Except AsmError Byte :=
  if c.toNat < 128 then .ok (BitVec.ofNat 8 c.toNat) else .error .nonAscii

/-- A quoted string's bytes, left to right (R55). -/
def asciiBytes : List Char → Except AsmError (List Byte)
  | [] => .ok []
  | c :: cs => do
    let d ← asciiByte c
    let ds ← asciiBytes cs
    .ok (d :: ds)

/-- UPDATE's operand in the three forms of R53, its value in [0, 255] (R54). -/
def byteOperand : Token → Except AsmError Byte
  | .word cs =>
    match numberValue cs with
    | some v => if v ≤ 255 then .ok (BitVec.ofNat 8 v) else .error .operandOutOfRange
    | none => .error .malformedOperand
  | .char c => asciiByte c
  | .str _ => .error .malformedOperand
  | .comma => .error .malformedOperand

/-- A list `b0, b1, ..., bk` of at least one operand (R55). -/
def byteList : List Token → Except AsmError (List Byte)
  | [] => .error .missingOperand
  | [t] => do
    let d ← byteOperand t
    .ok [d]
  | t :: .comma :: ts => do
    let d ← byteOperand t
    let ds ← byteList ts
    .ok (d :: ds)
  | _ :: _ :: _ => .error .malformedOperand

/-- A line of assembly: a blank or comment line, a reset mark, a command (R53) or a pseudo-instruction (R55). -/
inductive AsmLine where
  | blank
  | reset
  | nop
  | clear
  | update (d : Byte)
  | updateBytes (ds : List Byte)
  | updateAscii (ds : List Byte)
  | checksum (ds : List Byte)
  | checksumAscii (ds : List Byte)
deriving DecidableEq, Repr

/-- A line that takes no operand (R54). -/
def noOperand (ops : List Token) (l : AsmLine) : Except AsmError AsmLine :=
  match ops with
  | [] => .ok l
  | _ :: _ => .error .operandNotAllowed

/-- The one operand of `update` (R53, R54). -/
def oneByte : List Token → Except AsmError AsmLine
  | [] => .error .missingOperand
  | [t] => (byteOperand t).map .update
  | _ :: _ :: _ => .error .malformedOperand

/-- The one string operand of an `.ascii` form (R55). -/
def oneString (f : List Byte → AsmLine) : List Token → Except AsmError AsmLine
  | [] => .error .missingOperand
  | [.str cs] => (asciiBytes cs).map f
  | _ => .error .malformedOperand

/-- The line a token list stands for, or its rejection (R54). -/
def parseLine : List Token → Except AsmError AsmLine
  | [] => .ok .blank
  | .word m :: ops =>
    if m = "nop".toList then noOperand ops .nop
    else if m = "clear".toList then noOperand ops .clear
    else if m = "reset".toList then noOperand ops .reset
    else if m = "update".toList then oneByte ops
    else if m = "update.bytes".toList then (byteList ops).map .updateBytes
    else if m = "update.ascii".toList then oneString .updateAscii ops
    else if m = "checksum".toList then
      match ops with
      | [] => .ok (.checksum [])
      | _ :: _ => (byteList ops).map .checksum
    else if m = "checksum.ascii".toList then oneString .checksumAscii ops
    else .error .unknownMnemonic
  | .char _ :: _ => .error .unknownMnemonic
  | .str _ :: _ => .error .unknownMnemonic
  | .comma :: _ => .error .unknownMnemonic

/-- What a line puts into the run: the commands a pseudo-instruction expands to (R55), each as its word
(R51); `reset` marks a reset event and has no encoding (R53). -/
def AsmLine.expand : AsmLine → List Interaction
  | .blank => []
  | .reset => [.reset]
  | .nop => [.command (encode .nop)]
  | .clear => [.command (encode .clear)]
  | .update d => [.command (encode (.update (zext16 d)))]
  | .updateBytes ds => updateCommands ds
  | .updateAscii ds => updateCommands ds
  | .checksum ds => checksumCommands ds
  | .checksumAscii ds => checksumCommands ds

/-- One line of text assembled, or rejected. -/
def assembleLine (text : List Char) : Except AsmError (List Interaction) :=
  match lex .between text with
  | none => .error .malformedText
  | some ts => (parseLine ts).map AsmLine.expand

/-- What one line emits: "no word for a rejected line" (R54). -/
def emittedLine (text : List Char) : List Interaction :=
  match assembleLine text with
  | .ok es => es
  | .error _ => []

/-- Everything a text of several lines emits, in line order (R53: one command per line). DESIGN CHOICE
(log 12): a rejected line does not stop the others; R54 says only that the rejected line emits no word. -/
def emitted (lines : List (List Char)) : List Interaction := lines.flatMap emittedLine

/-- An upper-case hexadecimal digit. R56 says upper-case of UPDATE's two digits; for the four of
`.reserved` it is a DESIGN CHOICE (log 12), see `listing`. -/
def hexDigit (n : Nat) : Char := if n < 10 then Char.ofNat (48 + n) else Char.ofNat (55 + n)

/-- The lowest `k` hexadecimal digits of `n`, the highest first. -/
def hexDigits : Nat → Nat → List Char
  | 0, _ => []
  | k + 1, n => hexDigits k (n / 16) ++ [hexDigit (n % 16)]

/-- The listing form of a word (R56). DESIGN CHOICE (log 12): the four digits `WWWW` of `.reserved 0xWWWW`
are upper-case too, a point R56 settles only for the `HH` of `update 0xHH`. -/
def listing (cmd : Word) : List Char :=
  match decode cmd with
  | .command .nop => "nop".toList
  | .command .clear => "clear".toList
  | .command (.update d) => "update 0x".toList ++ hexDigits 2 d.toNat
  | .reserved _ w => ".reserved 0x".toList ++ hexDigits 4 w.toNat

end Sys2Proof.Machine
end

