-- ==== Sys2Proof/Machine/Datapath.lean ====
section
/-! DEFINITION. Implementations of the reduction that the rules speak of (41_accumulate.md R63 to R65, 70_reset_and_hazards.md R96), written down so that what the rules say of them can be stated. No step calls them. -/

namespace Sys2Proof.Machine

/-- One conditional subtraction (R64): `x ≥ 255 ? x − 255 : x`. -/
def conditionalSubtract (x : Nat) : Nat := if 255 ≤ x then x - 255 else x

/-- The end-around-carry fold (R65): `(x & 0xFF) + (x >> 8)`. -/
def endAroundFold (x : Nat) : Nat := (x &&& 0xFF) + (x >>> 8)

/-- A stage in 16-bit arithmetic (R63), the sum wrapping at 2^16. -/
def stage16 (x y : Word) : Word := (x + y) % 255

/-- A stage whose sum is kept in 9 bits (R63), reduced by a remainder. -/
def stage9Mod (x y : Word) : Word := ((x.setWidth 9 + y.setWidth 9 : BitVec 9) % 255).setWidth 16

/-- A stage as R64 describes a datapath: "a 9-bit adder, a compare with 255 and a conditional subtract". -/
def stage9 (x y : Word) : Word :=
  let sum : BitVec 9 := x.setWidth 9 + y.setWidth 9
  (if (255 : BitVec 9) ≤ sum then sum - 255 else sum).setWidth 16

/-- The two chained stages of R61 over any stage circuit. -/
def reducePairWith (stage : Word → Word → Word) (d : Word) (v : Word × Word) : Word × Word :=
  (stage v.1 d, stage v.2 (stage v.1 d))

/-- A reduction with stage A and stage B in different cycles (R96): stage A's value waits in `latch`
until stage B takes it. -/
structure Pipeline where
  a     : Word
  b     : Word
  latch : Option Word
deriving DecidableEq, Repr

/-- Stage B of the UPDATE in flight takes the `a'` of the same UPDATE (R96, first requirement). -/
def Pipeline.forwardedB (p : Pipeline) : Word :=
  match p.latch with
  | none => p.b
  | some a' => stageB p.b a'

/-- A new UPDATE enters stage A while the one in flight leaves stage B: the new one's stage A takes the
forwarded `a'` (R96, second requirement). -/
def Pipeline.issue (p : Pipeline) (d : Word) : Pipeline :=
  { a := stageA p.a d, b := p.forwardedB, latch := some (stageA p.a d) }

/-- No new UPDATE: the one in flight leaves stage B. -/
def Pipeline.drain (p : Pipeline) : Pipeline := { p with b := p.forwardedB, latch := none }

/-- The values the host sees (R96, R97: never "the new `a` with the old `b`"). -/
def Pipeline.visible (p : Pipeline) : Word × Word := (p.a, p.forwardedB)

end Sys2Proof.Machine
end

