-- ==== Sys2Proof/Machine/Platform.lean ====
section
/-! DEFINITION. A platform around the block: a byte-addressed view of `result`, and of no other port, with its OPEN parameters as arguments (20_memory.md R32, R38), and several blocks that share nothing (60_exceptions.md R86). The block alone needs none of this. -/

namespace Sys2Proof.Machine

/-- Bits [15:8] of a result, which are `b` (R32). -/
def resultHigh (v : Word) : Byte := v.extractLsb' 8 8

/-- Bits [7:0] of a result, which are `a` (R32). -/
def resultLow (v : Word) : Byte := v.extractLsb' 0 8

/-- Which byte of the result lies at the lower address (`offset` 0) and which at the higher (1). -/
def resultByteAt (order : ResultByteOrder) (higherAddress : Bool) (v : Word) : Byte :=
  match order, higherAddress with
  | .highFirst, false => resultHigh v
  | .highFirst, true => resultLow v
  | .lowFirst, false => resultLow v
  | .lowFirst, true => resultHigh v

/-- DEDUCED (log 11): `result` takes the two addresses from `BASE_ADDRESS` on. DESIGN CHOICE (log 11):
this is a view of `result` alone. R38 leaves open where the command port lies, and the view gives it no
address: `none` says only that the address holds neither byte of `result`. A byte is taken from one whole
read of the port (R35), which may fault (R28). -/
def platformReadByte (p : Config.Platform) (address : Nat) (s : State) : Option (Except Fault Byte) :=
  if address = p.baseAddress then some ((readPort s).map (resultByteAt p.resultByteOrder false))
  else if address = p.baseAddress + 1 then some ((readPort s).map (resultByteAt p.resultByteOrder true))
  else none

/-- Several blocks on one platform (R86): each has its own state, and one of them takes a step. -/
def stepBlock (blocks : List State) (k : Fin blocks.length) : Host.Outcome (List State) Fault Refusal :=
  match step blocks[k] with
  | .next s => .next (blocks.set k s)
  | .fault f => .fault f
  | .refused x => .refused x

end Sys2Proof.Machine
end

