-- ==== Sys2Proof/Safety.lean ====
section
/-! DEFINITION. What counts as a legal state and a safe run, in the words of the statements. -/

namespace Sys2Proof.Machine

/-- A cell within [0, 254], if it holds a value (10_state.md R16). -/
abbrev Cell.InRange (c : Cell) : Prop := c.all (fun v => decide (v.toNat ≤ 254)) = true

/-- The range invariant (R16): "Whenever `a` and `b` hold values, both lie in `[0, 254]`". -/
abbrev State.InRange (s : State) : Prop := Cell.InRange s.a ∧ Cell.InRange s.b

/-- Both registers hold values. -/
abbrev State.Defined (s : State) : Prop := s.a.isSome = true ∧ s.b.isSome = true

/-- Both registers hold values or neither does: every write of R22 writes both. -/
abbrev State.SameDefinedness (s : State) : Prop := s.a.isSome = s.b.isSome

/-- An interaction that is one of the writers of `a` and `b` (R14, R15): reset, CLEAR or UPDATE. -/
def writesAccumulators (e : Interaction) : Bool :=
  match e with
  | .reset => true
  | .readResult => false
  | .command cmd =>
    match decode cmd with
    | .command .nop => false
    | .command .clear => true
    | .command (.update _) => true
    | .reserved _ _ => false

/-- A word that the host must not send (R93): a reserved one. -/
def presentsReserved (e : Interaction) : Bool :=
  match e with
  | .command cmd => isReserved cmd
  | .reset => false
  | .readResult => false

end Sys2Proof.Machine
end

