-- ==== Sys2Proof/Certificates/Slice0/Obligations.lean ====
section
/-! DEFINITION. The statements for the provers. Each docstring names the rule of spec/ it formalises or rests on. -/

open Sys2Proof Sys2Proof.Machine

/-! ## Encoding -/

/-- 30_encoding.md R48: a word selects a command exactly when `(cmd & mask) = match`, and the three rows are disjoint. -/
def Obligations.OpcodeMapSelectsByMatchAndMask : Prop :=
  ∀ cmd : Word,
    (decode cmd = .command .nop ↔ cmd &&& 0xFFFF = 0x0000) ∧
    (decode cmd = .command .clear ↔ cmd &&& 0xFFFF = 0x0100) ∧
    ((∃ d, decode cmd = .command (.update d)) ↔ cmd &&& 0xFF00 = 0x0200) ∧
    (∀ i j : Instr, i.row.Selects cmd → j.row.Selects cmd → i.row = j.row)

/-- 30_encoding.md R50: the decoder's pseudocode, with `OP` and `D` as numbers, total on all words. -/
def Obligations.DecoderFollowsThePseudocode : Prop :=
  ∀ cmd : Word,
    (cmd.toNat / 256 = 0 ∧ cmd.toNat % 256 = 0 → decode cmd = .command .nop) ∧
    (cmd.toNat / 256 = 1 ∧ cmd.toNat % 256 = 0 → decode cmd = .command .clear) ∧
    (cmd.toNat / 256 = 2 → decode cmd = .command (.update (BitVec.ofNat 16 (cmd.toNat % 256)))) ∧
    (¬(cmd.toNat / 256 = 0 ∧ cmd.toNat % 256 = 0) → ¬(cmd.toNat / 256 = 1 ∧ cmd.toNat % 256 = 0) →
      cmd.toNat / 256 ≠ 2 → ∃ c, decode cmd = .reserved c cmd)

/-- 30_encoding.md R49: the two classes of reserved words, by their fields. -/
def Obligations.ReservedWordsFallInTwoClasses : Prop :=
  ∀ cmd : Word,
    (decode cmd = .reserved .nonzeroData cmd ↔ cmd.toNat / 256 ≤ 1 ∧ cmd.toNat % 256 ≠ 0) ∧
    (decode cmd = .reserved .reservedOpcode cmd ↔ 3 ≤ cmd.toNat / 256)

/-- 30_encoding.md R49, R52: how many of the 65536 words are reserved, in all and in each class. -/
def Obligations.ReservedWordCounts : Prop :=
  (List.range 65536).countP (fun n => isReserved (BitVec.ofNat 16 n)) = 65278 ∧
  (List.range 65536).countP
    (fun n => decide (decode (BitVec.ofNat 16 n) = .reserved .reservedOpcode (BitVec.ofNat 16 n))) = 64768 ∧
  (List.range 65536).countP
    (fun n => decide (decode (BitVec.ofNat 16 n) = .reserved .nonzeroData (BitVec.ofNat 16 n))) = 510

/-- 30_encoding.md R51: the encoder's words, and decoding and encoding undo each other. -/
def Obligations.DecodeAndEncodeAgree : Prop :=
  encode .nop = 0x0000 ∧ encode .clear = 0x0100 ∧
  (∀ d : Word, d.toNat ≤ 255 → encode (.update d) = 0x0200 ||| d) ∧
  (∀ i : Instr, WellFormed i → decode (encode i) = .command i) ∧
  (∀ (w : Word) (i : Instr), decode w = .command i → encode i = w)

/-- 30_encoding.md R47: UPDATE's operand is the data field, zero-extended, in [0, 255]. -/
def Obligations.UpdateOperandIsZeroExtendedData : Prop :=
  ∀ (cmd d : Word), decode cmd = .command (.update d) → d.toNat = cmd.toNat % 256 ∧ d.toNat ≤ 255

/-- 95_test_vectors.md V-DEC: words written out from the opcode map decode as it says. -/
def Obligations.WrittenOutWordsDecode : Prop :=
  decode 0b0000000000000000 = .command .nop ∧
  decode 0b0000000100000000 = .command .clear ∧
  decode 0b0000001001100001 = .command (.update 97) ∧
  decode 0b0000001011111111 = .command (.update 255) ∧
  decode 0b0000000000000001 = .reserved .nonzeroData 0x0001 ∧
  decode 0b0000000110000000 = .reserved .nonzeroData 0x0180 ∧
  decode 0b0000001100000000 = .reserved .reservedOpcode 0x0300 ∧
  decode 0b1000001000000000 = .reserved .reservedOpcode 0x8200

/-! ## Steps -/

/-- 10_state.md R25: a step whose oldest pending interaction is a command word runs the decoded command. -/
def Obligations.StepRunsTheDecodedCommand : Prop :=
  ∀ (s : State) (cmd : Word) (rest : List Interaction) (i : Instr),
    s.pending = .command cmd :: rest → decode cmd = .command i → step s = exec i { s with pending := rest }

/-- 10_state.md R25, 30_encoding.md R51: a well-formed command the host presents is what the very next step runs.
DESIGN CHOICE (log 1): `withFetchWord` presents it ahead of everything pending; R25 says only that words are
accepted in the order the host presents them. -/
def Obligations.PresentedCommandRunsNext : Prop :=
  ∀ (s : State) (i : Instr), WellFormed i → step (s.withFetchWord 16 (encode i).toNat) = exec i s

/-- 60_exceptions.md R76: a reserved word is refused, and the run carries the mark for good, whatever follows. The
state reported is R80's; that it stays so whatever follows is DEDUCED (log 6: nothing is applied after a refusal).
That such a run has no observation is 70_reset_and_hazards.md R94. -/
def Obligations.ReservedWordMarksTheRunForGood : Prop :=
  ∀ cmd : Word, isReserved cmd = true →
    (∀ (s : State) (rest : List Interaction), s.pending = .command cmd :: rest →
      step s = .refused (.reservedCommand cmd)) ∧
    (∀ (r : RunRecord) (es : List Interaction), r.refusal = none →
      (r.run (.command cmd :: es)).refusal = some (.reservedCommand cmd) ∧
      (r.run (.command cmd :: es)).state = r.state ∧
      (r.run (.command cmd :: es)).observation = none ∧
      (r.run (.command cmd :: es)).result = none)

/-- 60_exceptions.md R77: a read of `result` while a register is `⊥` faults, and the record outlasts every
later event. -/
def Obligations.UndefinedReadIsRecordedForGood : Prop :=
  (∀ (s : State) (rest : List Interaction), s.pending = .readResult :: rest → s.a = none ∨ s.b = none →
    step s = .fault .undefinedResult) ∧
  (∀ (r : RunRecord) (es : List Interaction), r.refusal = none → r.state.a = none ∨ r.state.b = none →
    (r.run (.readResult :: es)).fault = some .undefinedResult ∧
    (r.run (.readResult :: es)).observation = none ∧
    (r.run (.readResult :: es)).result = none)

/-- 60_exceptions.md R75, R80: a step stops for one of two causes only, an undefined read or a reserved word. -/
def Obligations.StepsStopForTwoCausesOnly : Prop :=
  ∀ s : State,
    (∀ f, step s = .fault f →
      f = .undefinedResult ∧ (s.a = none ∨ s.b = none) ∧ ∃ rest, s.pending = .readResult :: rest) ∧
    (∀ x, step s = .refused x →
      ∃ cmd rest, x = .reservedCommand cmd ∧ isReserved cmd = true ∧ s.pending = .command cmd :: rest)

/-- 60_exceptions.md R88: with no interaction pending, nothing changes. DEDUCED (log 4): a step is then idle. -/
def Obligations.IdleStepKeepsTheState : Prop :=
  ∀ s : State, s.pending = [] → step s = .next s

/-! ## The commands -/

/-- 60_exceptions.md R75: NOP, CLEAR and UPDATE complete from every state, `⊥` included, and leave the host's
side alone. -/
def Obligations.EveryCommandCompletes : Prop :=
  ∀ (i : Instr) (s : State), ∃ t, exec i s = .next t ∧ t.pending = s.pending ∧ t.reads = s.reads

/-- 40_control.md R57: NOP's word, its effect (none, `⊥` included), the words beside it, that it is not `update 0`
(which changes `b` whenever `a` is non-zero), and that NOPs anywhere in a run change nothing. -/
def Obligations.NopChangesNothing : Prop :=
  decode 0x0000 = .command .nop ∧
  (∀ s : State, exec .nop s = .next s) ∧
  (∀ n : Nat, 0x0001 ≤ n → n ≤ 0x00FF → isReserved (BitVec.ofNat 16 n) = true) ∧
  (∀ (s t : State) (x : Word), s.InRange → s.Defined → s.a = some x → x ≠ 0 →
    exec (.update 0x0000) s = .next t → t.b ≠ s.b) ∧
  (∀ (r : RunRecord) (es : List Interaction),
    r.run es = r.run (es.filter fun e => decide (e ≠ .command 0x0000)))

/-- 40_control.md R58: CLEAR's word, its effect from every state, the words beside it, the result after it, and
that a run of CLEARs equals one. -/
def Obligations.ClearStartsANewChecksum : Prop :=
  decode 0x0100 = .command .clear ∧
  (∀ s : State, exec .clear s = .next { s with a := some 0x0000, b := some 0x0000 }) ∧
  (∀ s : State, readPort { s with a := some 0x0000, b := some 0x0000 } = .ok 0x0000) ∧
  (∀ n : Nat, 0x0101 ≤ n → n ≤ 0x01FF → isReserved (BitVec.ofNat 16 n) = true) ∧
  (∀ (r : RunRecord) (k : Nat),
    r.run (List.replicate (k + 1) (.command 0x0100)) = r.run [.command 0x0100])

/-- 41_accumulate.md R62: UPDATE's word and its effect, from registers that hold values and from `⊥`. The
record update says its frame: nothing but `a` and `b` changes. -/
def Obligations.UpdateAddsOneByte : Prop :=
  (∀ d : Word, d.toNat ≤ 255 → decode (0x0200 ||| d) = .command (.update d)) ∧
  (∀ (s : State) (d x y : Word), s.a = some x → s.b = some y →
    exec (.update d) s = .next { s with
      a := some (BitVec.ofNat 16 ((x.toNat + d.toNat) % 255))
      b := some (BitVec.ofNat 16 ((y.toNat + (x.toNat + d.toNat) % 255) % 255)) }) ∧
  (∀ (s : State) (d : Word), s.a = none ∨ s.b = none →
    exec (.update d) s = .next { s with a := none, b := none })

/-- 41_accumulate.md R62 with 10_state.md R24: after UPDATE from registers in range, the port shows the new pair. -/
def Obligations.UpdateShowsOnTheResultPort : Prop :=
  ∀ (s t : State) (d x y : Word), s.InRange → s.a = some x → s.b = some y → exec (.update d) s = .next t →
    ∃ v, readPort t = .ok v ∧
      v.toNat = ((y.toNat + (x.toNat + d.toNat) % 255) % 255) * 256 + (x.toNat + d.toNat) % 255

/-- 41_accumulate.md R69: what a command leaves in `a` and `b` depends on `a` and `b` alone. -/
def Obligations.CommandsDependOnTheAccumulatorsOnly : Prop :=
  ∀ (i : Instr) (s s' t t' : State), s.a = s'.a → s.b = s'.b → exec i s = .next t → exec i s' = .next t' →
    t.a = t'.a ∧ t.b = t'.b

/-! ## The reduction -/

/-- 41_accumulate.md R60: `red255` is the remainder mod 255, in [0, 254], and a multiple of 255 reduces to 0. -/
def Obligations.ReductionIsRemainderMod255 : Prop :=
  ∀ x : Nat, red255 x ≤ 254 ∧ (∃ q, x = 255 * q + red255 x) ∧ (255 ∣ x → red255 x = 0)

/-- 41_accumulate.md R61: stage B consumes the new `a`; with the old one, `[1]` would give `b = 0`. -/
def Obligations.StageBConsumesTheNewA : Prop :=
  (∀ d a b : Word,
    (reducePair d (a, b)).1.toNat = (a.toNat + d.toNat) % 255 ∧
    (reducePair d (a, b)).2.toNat = (b.toNat + (reducePair d (a, b)).1.toNat) % 255) ∧
  reducePair 1 (0, 0) = (1, 1)

/-- 41_accumulate.md R63: the sums fit in 9 bits, and exact, 9-bit and 16-bit sums give the same two values. -/
def Obligations.SumsNeverOverflow : Prop :=
  ∀ a b d : Word, a.toNat ≤ 254 → b.toNat ≤ 254 → d.toNat ≤ 255 →
    a.toNat + d.toNat ≤ 509 ∧ (stageA a d).toNat ≤ 254 ∧ b.toNat + (stageA a d).toNat ≤ 508 ∧
    reducePairWith stage9Mod d (a, b) = reducePair d (a, b) ∧
    reducePairWith stage16 d (a, b) = reducePair d (a, b)

/-- 41_accumulate.md R64: one conditional subtraction per stage is exact, and a datapath built so gives UPDATE's values. -/
def Obligations.ConditionalSubtractIsExact : Prop :=
  (∀ x : Nat, x ≤ 509 → conditionalSubtract x = x % 255) ∧
  (∀ a b d : Word, a.toNat ≤ 254 → b.toNat ≤ 254 → d.toNat ≤ 255 →
    reducePairWith stage9 d (a, b) = reducePair d (a, b))

/-- 41_accumulate.md R65: over [0, 509] the end-around fold differs from mod 255 at 255 alone, where it leaves 255. -/
def Obligations.EndAroundFoldFailsAt255Only : Prop :=
  (∀ x : Nat, x ≤ 509 → (endAroundFold x = red255 x ↔ x ≠ 255)) ∧
  (∀ x : Nat, 256 ≤ x → x ≤ 509 → endAroundFold x = x - 255) ∧
  endAroundFold 255 = 255 ∧ red255 255 = 0

/-- 70_reset_and_hazards.md R96: a two-stage reduction that forwards shows the host what atomic UPDATEs show. DESIGN
CHOICE (log 18): the pipeline, its latch and what is `visible` of it are the model's own; R96 leaves an implementation
free to forward or to stall, and this one forwards. -/
def Obligations.ForwardingPipelineIsInvisible : Prop :=
  (∀ (p : Pipeline) (ds : List Word),
    (ds.foldl Pipeline.issue p).visible = ds.foldl (fun v d => reducePair d v) p.visible) ∧
  (∀ p : Pipeline, p.drain.visible = p.visible ∧ p.drain.latch = none ∧ (p.drain.a, p.drain.b) = p.visible)

/-! ## Invariants -/

/-- 10_state.md R16: whenever `a` and `b` hold values both lie in [0, 254]: every step keeps it. -/
def Obligations.EveryStepKeepsTheRange : Prop :=
  ∀ s t : State, s.InRange → step s = .next t → t.InRange

/-- 10_state.md R16, R22, R29: the states right after reset and at power-up meet the invariants. -/
def Obligations.ResetAndPowerUpMeetTheInvariants : Prop :=
  State.reset.InRange ∧ State.powerUp.InRange ∧ State.reset.Defined ∧
  State.reset.SameDefinedness ∧ State.powerUp.SameDefinedness ∧ ¬ State.powerUp.Defined

/-- 10_state.md R22: every write writes both cells, so both hold values or neither does: every step keeps it. -/
def Obligations.EveryStepKeepsTheCellsAlike : Prop :=
  ∀ s t : State, s.SameDefinedness → step s = .next t → t.SameDefinedness

/-- 10_state.md R22: registers that hold values keep holding values. -/
def Obligations.EveryStepKeepsDefinedRegisters : Prop :=
  ∀ s t : State, s.Defined → step s = .next t → t.Defined

/-- 10_state.md R22: what each event does to `⊥`. -/
def Obligations.UndefinedCellTransitions : Prop :=
  (∀ s : State, ∃ t, interact .reset s = .next t ∧ t.Defined) ∧
  (∀ s : State, ∃ t, exec .clear s = .next t ∧ t.Defined) ∧
  (∀ s : State, s.a = none → s.b = none → ∃ t, exec .nop s = .next t ∧ t.a = none ∧ t.b = none) ∧
  (∀ (s : State) (d : Word), s.a = none ∨ s.b = none → ∃ t, exec (.update d) s = .next t ∧ t.a = none ∧ t.b = none) ∧
  (∀ s : State, s.a = none ∨ s.b = none → interact .readResult s = .fault .undefinedResult)

/-- 70_reset_and_hazards.md R91: until the first reset or CLEAR, `a` and `b` hold no value, whatever else happens. -/
def Obligations.PowerUpStaysUndefinedUntilResetOrClear : Prop :=
  ∀ es : List Interaction, (∀ e ∈ es, e ≠ .reset ∧ e ≠ .command 0x0100) →
    ((RunRecord.start .powerUp).run es).state.a = none ∧ ((RunRecord.start .powerUp).run es).state.b = none ∧
    ((RunRecord.start .powerUp).run es).result = none

/-- 10_state.md R14, R15: only reset, CLEAR and UPDATE write the accumulators. -/
def Obligations.OnlyResetClearAndUpdateWrite : Prop :=
  ∀ s t : State, step s = .next t → (∀ e, s.pending.head? = some e → writesAccumulators e = false) →
    t.a = s.a ∧ t.b = s.b

/-! ## The result port and reset -/

/-- 10_state.md R24: a read gives `((b << 8) | a)[15:0]`, which in range is `b * 256 + a`, changes nothing but
what the host has got back, and two reads give the same value. -/
def Obligations.ReadGivesThePackedPair : Prop :=
  (∀ (s : State) (rest : List Interaction) (x y : Word), s.pending = .readResult :: rest →
    s.a = some x → s.b = some y →
    step s = .next { s with pending := rest, reads := s.reads ++ [(y <<< 8) ||| x] }) ∧
  (∀ x y : Word, x.toNat ≤ 254 → y.toNat ≤ 254 → ((y <<< 8) ||| x).toNat = y.toNat * 256 + x.toNat) ∧
  (∀ (s : State) (rest : List Interaction) (x y : Word), s.pending = .readResult :: .readResult :: rest →
    s.a = some x → s.b = some y →
    ∃ v, stepMany 2 s = .next { s with pending := rest, reads := s.reads ++ [v, v] })

/-- 10_state.md R29: reset writes 0 to both registers, from every state, and the result is then 0. -/
def Obligations.ResetWritesZero : Prop :=
  (∀ (s : State) (rest : List Interaction), s.pending = .reset :: rest →
    step s = .next { s with pending := rest, a := some 0x0000, b := some 0x0000 }) ∧
  (∀ s : State, readPort { s with a := some 0x0000, b := some 0x0000 } = .ok 0x0000) ∧
  State.reset.a = some 0x0000 ∧ State.reset.b = some 0x0000 ∧ readPort .reset = .ok 0x0000

/-- 60_exceptions.md R79: reset beats a command that arrives with it: the word is not applied, reserved or not. It rests
on log 8: DEDUCED from the spec's decision D11, unsafe, and the form of `arriving` is a DESIGN CHOICE. -/
def Obligations.ResetBeatsAConcurrentCommand : Prop :=
  ∀ (r : RunRecord) (presented : Option Word), r.refusal = none →
    (∀ cmd, arriving false (some cmd) = some (.command cmd)) ∧
    r.run (arriving true presented).toList = { r with state := { r.state with a := some 0x0000, b := some 0x0000 } }

/-- 40_control.md R59: CLEAR and reset have the same effect. -/
def Obligations.ClearAndResetHaveTheSameEffect : Prop :=
  ∀ (s s' : State) (rest : List Interaction), s.pending = .command 0x0100 :: rest →
    s' = { s with pending := .reset :: rest } → step s = step s'

/-- 70_reset_and_hazards.md R90: nothing survives reset: two runs that differ in all that came before it end alike,
and bytes sent before it do not count. -/
def Obligations.NothingSurvivesReset : Prop :=
  (∀ (s s' : State) (es : List Interaction),
    ((RunRecord.start s).run (.reset :: es)).state.a = ((RunRecord.start s').run (.reset :: es)).state.a ∧
    ((RunRecord.start s).run (.reset :: es)).state.b = ((RunRecord.start s').run (.reset :: es)).state.b ∧
    ((RunRecord.start s).run (.reset :: es)).fault = ((RunRecord.start s').run (.reset :: es)).fault ∧
    ((RunRecord.start s).run (.reset :: es)).refusal = ((RunRecord.start s').run (.reset :: es)).refusal) ∧
  (∀ (r : RunRecord) (es : List Interaction) (data : List Byte), (r.run es).Good →
    ∃ v, (r.run (es ++ .reset :: updateCommands data)).result = some v ∧ v.toNat = fletcher16 data data.length)

/-! ## Runs and the checksum function -/

/-- 20_memory.md R36, 70_reset_and_hazards.md R94: stepping the machine through all that is pending answers a next state
exactly when the run is good, and then that state. Both forms are the model's: the list `pending` in the state is a
DESIGN CHOICE (log 1), and that a step stops where the run records a fault and goes on is DEDUCED (log 7). That a run ending at `⊥` without a
read of `result` is good is a DESIGN CHOICE (log 19). -/
def Obligations.StepsAgreeWithTheRun : Prop :=
  ∀ s t : State,
    stepMany s.pending.length s = .next t ↔
      ((RunRecord.start { s with pending := [] }).run s.pending).Good ∧
      ((RunRecord.start { s with pending := [] }).run s.pending).state = t

/-- 70_reset_and_hazards.md R94: only a good run has an observation, the pair `(a, b)` at its end. DESIGN CHOICE (log 19):
a run that ends with a register at `⊥` and never read `result` is good, and its observation is the pair with the `⊥`. -/
def Obligations.OnlyGoodRunsAreObserved : Prop :=
  ∀ (r : RunRecord) (v : Cell × Cell), r.observation = some v ↔ r.Good ∧ v = (r.state.a, r.state.b)

/-- 60_exceptions.md R75, R76: from registers that hold values, a run is good exactly when no reserved word is presented. -/
def Obligations.DefinedRunsAreGoodWithoutReservedWords : Prop :=
  ∀ (s : State) (es : List Interaction), s.Defined →
    (((RunRecord.start s).run es).Good ↔ ∀ e ∈ es, presentsReserved e = false)

/-- 41_accumulate.md R66: the command sequence of `fletcher16(data, count)`, with a CLEAR or a reset first, after every
good run, ends with the source function's value on the port; the `checksum` expansion writes that sequence. -/
def Obligations.CommandSequenceComputesFletcher16 : Prop :=
  ∀ (r : RunRecord) (data : List Byte) (count : Nat), r.Good → count ≤ data.length →
    ∃ es v, fletcher16Commands data count = .ok es ∧ (AsmLine.checksum (data.take count)).expand = es ∧
      (r.run es).Good ∧ (r.run es).result = some v ∧
      (r.run (.reset :: updateCommands (data.take count))).result = some v ∧
      v.toNat = fletcher16 data count

/-- 41_accumulate.md R67: a `count` beyond the data has no command sequence; otherwise exactly `count` UPDATEs
follow the CLEAR, carrying the first `count` bytes in order. -/
def Obligations.CountBeyondTheDataIsRefused : Prop :=
  ∀ (data : List Byte) (count : Nat),
    (data.length < count → fletcher16Commands data count = .error (.countBeyondData count data.length)) ∧
    (count ≤ data.length → ∃ es, fletcher16Commands data count = .ok (.command 0x0100 :: es) ∧ es.length = count ∧
      ∀ (k : Nat) (d : Byte), k < count → data[k]? = some d → es[k]? = some (.command (0x0200 ||| d.setWidth 16)))

/-- 41_accumulate.md R68: with `count = 0` the sequence is CLEAR alone and the result is 0. -/
def Obligations.EmptyInputGivesZero : Prop :=
  ∀ (r : RunRecord) (data : List Byte), r.Good →
    fletcher16Commands data 0 = .ok [.command 0x0100] ∧ (r.run [.command 0x0100]).result = some 0x0000

/-- 41_accumulate.md R70: at every `k` the result is the checksum of the first `k` bytes, and truncating first is the same. -/
def Obligations.ResultIsThePrefixChecksum : Prop :=
  ∀ (r : RunRecord) (data : List Byte) (k : Nat), r.Good → k ≤ data.length →
    ∃ v, (r.run ((checksumCommands data).take (k + 1))).result = some v ∧
      (r.run (.reset :: (updateCommands data).take k)).result = some v ∧
      v.toNat = fletcher16 data k ∧ fletcher16 data k = fletcher16 (data.take k) k

/-- 41_accumulate.md R71: the closed form after CLEAR and `n` UPDATEs; with `i` from 0, byte `i` counts `n - i` times in `b`. -/
def Obligations.ClosedFormOfTheAccumulators : Prop :=
  ∀ (r : RunRecord) (data : List Byte), r.Good →
    (r.run (checksumCommands data)).state.a =
      some (BitVec.ofNat 16 ((∑ i : Fin data.length, data[i].toNat) % 255)) ∧
    (r.run (checksumCommands data)).state.b =
      some (BitVec.ofNat 16 ((∑ i : Fin data.length, (data.length - i.val) * data[i].toNat) % 255))

/-- 41_accumulate.md R72: every reachable result has both bytes in [0, 254], and every such pair is reached from
`(0, 0)` by the two UPDATEs the rule gives. -/
def Obligations.ReachableResults : Prop :=
  (∀ (s : State) (es : List Interaction) (v : Word), s.InRange → ((RunRecord.start s).run es).result = some v →
    v.toNat / 256 ≤ 254 ∧ v.toNat % 256 ≤ 254) ∧
  (∀ A B : Nat, A ≤ 254 → B ≤ 254 →
    ((RunRecord.start .reset).run (updateCommands
      [BitVec.ofNat 8 ((B + 255 - A) % 255), BitVec.ofNat 8 ((2 * A + 255 - B) % 255)])).result
        = some (BitVec.ofNat 16 (B * 256 + A)))

/-- 41_accumulate.md R73: `0x00` and `0xFF` are the same input, and a sequence of them gives 0. -/
def Obligations.ZeroAndFFAreTheSameInput : Prop :=
  (∀ s : State, exec (.update 0x00FF) s = exec (.update 0x0000) s) ∧
  (∀ (r : RunRecord) (data : List Byte), r.Good → (∀ d ∈ data, d = 0x00 ∨ d = 0xFF) →
    (r.run (checksumCommands data)).result = some 0x0000)

/-- 41_accumulate.md R74: a zero byte leaves `a` and adds it to `b`; leading zero bytes change nothing; a later one
changes `b` unless `a` is 0. The premise is the range invariant R16, which every step keeps. -/
def Obligations.ZeroBytes : Prop :=
  (∀ (s : State) (x y : Word), s.InRange → s.a = some x → s.b = some y →
    exec (.update 0x0000) s = .next { s with b := some (BitVec.ofNat 16 ((y.toNat + x.toNat) % 255)) } ∧
    (BitVec.ofNat 16 ((y.toNat + x.toNat) % 255) = y ↔ x = 0)) ∧
  (∀ (r : RunRecord) (zeros data : List Byte), r.Good → (∀ z ∈ zeros, z = 0x00 ∨ z = 0xFF) →
    r.run (checksumCommands (zeros ++ data)) = r.run (checksumCommands data))

/-- 70_reset_and_hazards.md R92: without a CLEAR between them, and whether or not the host reads `result` in between, two
sequences give the checksum of their joining; with a CLEAR, that of the second. -/
def Obligations.ForgottenClearJoinsTheSequences : Prop :=
  ∀ (r : RunRecord) (first second : List Byte), r.Good →
    (∃ v, (r.run (checksumCommands first ++ .readResult :: updateCommands second)).result = some v ∧
      v.toNat = fletcher16 (first ++ second) (first ++ second).length) ∧
    (∃ v, (r.run (checksumCommands first ++ .readResult :: checksumCommands second)).result = some v ∧
      v.toNat = fletcher16 second second.length)

/-- 20_memory.md R31: the order of the bytes matters (95_test_vectors.md V-ORD). -/
def Obligations.ByteOrderMatters : Prop :=
  ((RunRecord.start .reset).run (checksumCommands [1, 2])).result = some 0x0403 ∧
  ((RunRecord.start .reset).run (checksumCommands [2, 1])).result = some 0x0503

/-- 20_memory.md R37: CLEAR is idempotent, UPDATE is not. -/
def Obligations.ClearIsIdempotentUpdateIsNot : Prop :=
  (∀ s t : State, exec .clear s = .next t → exec .clear t = .next t) ∧
  (∃ (d : Word) (s t : State), exec (.update d) s = .next t ∧ exec (.update d) t ≠ .next t)

/-! ## The assembler and the platform -/

/-- 30_encoding.md R54: what the assembler rejects, that a rejected line emits nothing, and that no reserved word comes
from assembly. DESIGN CHOICE (log 12): `emitted`, in the last clause, goes on with the lines after a rejected one. -/
def Obligations.AssemblerRejections : Prop :=
  (∀ (cs : List Char) (v : Nat), numberValue cs = some v → 255 < v →
    parseLine [.word "update".toList, .word cs] = .error .operandOutOfRange) ∧
  parseLine [.word "update".toList] = .error .missingOperand ∧
  (∀ (t : Token) (ts : List Token), parseLine (.word "nop".toList :: t :: ts) = .error .operandNotAllowed ∧
    parseLine (.word "clear".toList :: t :: ts) = .error .operandNotAllowed) ∧
  (∀ (m : List Char) (ts : List Token),
    m ∉ ["nop".toList, "clear".toList, "reset".toList, "update".toList, "update.bytes".toList,
      "update.ascii".toList, "checksum".toList, "checksum.ascii".toList] →
    parseLine (.word m :: ts) = .error .unknownMnemonic) ∧
  (∀ (line : List Char) (e : AsmError), assembleLine line = .error e → emittedLine line = []) ∧
  (∀ (lines : List (List Char)) (cmd : Word), .command cmd ∈ emitted lines → isReserved cmd = false)

/-- 30_encoding.md R56: the listing of every word; with R53 and R54: assembling it gives the word back, or rejects it if
the word is reserved. DESIGN CHOICE (log 12): the upper-case digits of `.reserved`, and the blanks and hexadecimal
digits the assembler reads. -/
def Obligations.ListingAssemblesBack : Prop :=
  listing 0x0000 = "nop".toList ∧ listing 0x0100 = "clear".toList ∧
  (∀ d : Nat, d ≤ 255 →
    listing (BitVec.ofNat 16 (0x0200 + d)) = "update 0x".toList ++ [hexDigit (d / 16), hexDigit (d % 16)]) ∧
  (∀ cmd : Word, isReserved cmd = true →
    listing cmd = ".reserved 0x".toList ++ [hexDigit (cmd.toNat / 4096), hexDigit (cmd.toNat / 256 % 16),
      hexDigit (cmd.toNat / 16 % 16), hexDigit (cmd.toNat % 16)]) ∧
  (∀ cmd : Word, isReserved cmd = false → assembleLine (listing cmd) = .ok [.command cmd]) ∧
  (∀ cmd : Word, isReserved cmd = true → assembleLine (listing cmd) = .error .unknownMnemonic)

/-- 30_encoding.md R55: each pseudo-instruction reads its operands and expands to the commands shown, and after a
`checksum` expansion the result is the source's function of the listed bytes. An `.ascii` form gives one UPDATE per
character, left to right, with the character's ASCII code, and its string is ASCII only. A list of bytes is separated
by commas. DESIGN CHOICE (log 12): a listed byte may have each of R53's three forms, and a quoted string has no escapes,
so it ends at the next double quotation mark. -/
def Obligations.PseudoInstructionsExpand : Prop :=
  (∀ ds : List Byte,
    (AsmLine.updateBytes ds).expand = ds.flatMap (fun d => (AsmLine.update d).expand) ∧
    (AsmLine.updateAscii ds).expand = (AsmLine.updateBytes ds).expand ∧
    (AsmLine.checksum ds).expand = AsmLine.clear.expand ++ (AsmLine.updateBytes ds).expand ∧
    (AsmLine.checksumAscii ds).expand = AsmLine.clear.expand ++ (AsmLine.updateAscii ds).expand) ∧
  (∀ (cs : List Char) (v : Nat), numberValue cs = some v → v ≤ 255 →
    byteOperand (.word cs) = .ok (BitVec.ofNat 8 v)) ∧
  (∀ c : Char, c.toNat < 128 → byteOperand (.char c) = .ok (BitVec.ofNat 8 c.toNat)) ∧
  (∀ ops : List (Token × Byte), ops ≠ [] → (∀ p ∈ ops, byteOperand p.1 = .ok p.2) →
    parseLine (.word "update.bytes".toList :: (ops.map Prod.fst).intersperse .comma) =
      .ok (.updateBytes (ops.map Prod.snd)) ∧
    parseLine (.word "checksum".toList :: (ops.map Prod.fst).intersperse .comma) =
      .ok (.checksum (ops.map Prod.snd))) ∧
  parseLine [.word "checksum".toList] = .ok (.checksum []) ∧
  (∀ cs : List Char, (∀ c ∈ cs, c.toNat < 128) →
    parseLine [.word "update.ascii".toList, .str cs] =
      .ok (.updateAscii (cs.map fun c => BitVec.ofNat 8 c.toNat)) ∧
    parseLine [.word "checksum.ascii".toList, .str cs] =
      .ok (.checksumAscii (cs.map fun c => BitVec.ofNat 8 c.toNat))) ∧
  (∀ cs : List Char, (∃ c ∈ cs, 128 ≤ c.toNat) →
    parseLine [.word "update.ascii".toList, .str cs] = .error .nonAscii ∧
    parseLine [.word "checksum.ascii".toList, .str cs] = .error .nonAscii) ∧
  (∀ cs : List Char, (∀ c ∈ cs, c.toNat < 128) → doubleQuote ∉ cs →
    assembleLine ("update.ascii ".toList ++ doubleQuote :: (cs ++ [doubleQuote])) =
      .ok (cs.map fun c => .command (0x0200 ||| BitVec.ofNat 16 c.toNat)) ∧
    assembleLine ("checksum.ascii ".toList ++ doubleQuote :: (cs ++ [doubleQuote])) =
      .ok (.command 0x0100 :: cs.map fun c => .command (0x0200 ||| BitVec.ofNat 16 c.toNat))) ∧
  (∀ (r : RunRecord) (ds : List Byte), r.Good →
    ∃ v, (r.run (AsmLine.checksum ds).expand).result = some v ∧ v.toNat = fletcher16 ds ds.length)

/-- 20_memory.md R32, R38: a platform's byte view of `result`, for both byte orders and every base address. DEDUCED (log 11):
the two bytes take the two addresses from the base on. DESIGN CHOICE (log 11): the view is of `result` alone, so every
other address has neither of its bytes; where the command port lies stays open. -/
def Obligations.PlatformByteView : Prop :=
  ∀ (p : Config.Platform) (s : State) (x y : Word), s.InRange → s.a = some x → s.b = some y →
    (p.resultByteOrder = .highFirst →
      platformReadByte p p.baseAddress s = some (.ok (BitVec.ofNat 8 y.toNat)) ∧
      platformReadByte p (p.baseAddress + 1) s = some (.ok (BitVec.ofNat 8 x.toNat))) ∧
    (p.resultByteOrder = .lowFirst →
      platformReadByte p p.baseAddress s = some (.ok (BitVec.ofNat 8 x.toNat)) ∧
      platformReadByte p (p.baseAddress + 1) s = some (.ok (BitVec.ofNat 8 y.toNat))) ∧
    (∀ address, address ≠ p.baseAddress → address ≠ p.baseAddress + 1 → platformReadByte p address s = none)

/-- 60_exceptions.md R86: several blocks share no state: a step of one leaves every other as it was. -/
def Obligations.BlocksShareNoState : Prop :=
  ∀ (blocks after : List State) (k : Fin blocks.length), stepBlock blocks k = .next after →
    (∃ t, step blocks[k] = .next t ∧ after[k.val]? = some t) ∧
    (∀ j : Nat, j ≠ k.val → after[j]? = blocks[j]?)
end

