-- ==== Sys2Proof/Laws/PerInstr.lean ====
section
/-! SUPPORT. Statements made for every instruction as syntax, one lemma per constructor. -/

namespace Sys2Proof.Laws

/-- The word of a well-formed instruction is one that its own row of the opcode map selects (30_encoding.md R48, R51). -/
def EncodesInRow.Statement (i : Instr) : Prop := WellFormed i → i.row.Selects (encode i)

theorem EncodesInRow.nop : EncodesInRow.Statement .nop := fun _ => by decide

theorem EncodesInRow.clear : EncodesInRow.Statement .clear := fun _ => by decide

/-- A well-formed UPDATE's operand is some byte, zero-extended (R47). -/
theorem operand_eq_zext16 {d : Word} (h : WellFormed (.update d)) : d = zext16 (BitVec.ofNat 8 d.toNat) := by
  have h' : d.toNat ≤ 255 := of_decide_eq_true h
  apply BitVec.eq_of_toNat_eq
  simp [zext16]
  omega

theorem EncodesInRow.update (d : Word) : EncodesInRow.Statement (.update d) := fun h => by
  rw [operand_eq_zext16 h]
  generalize BitVec.ofNat 8 d.toNat = x
  revert x
  decide

end Sys2Proof.Laws
end

