-- ==== Sys2Proof/Laws/Decode.lean ====
section
/-! SUPPORT. The fields of a command word as numbers, and the decoder's cases. -/

namespace Sys2Proof

/-- `cmd[15:8]` as a number. -/
theorem opField_toNat (cmd : Word) : (opField cmd).toNat = cmd.toNat / 256 := by
  simp [opField, Nat.shiftRight_eq_div_pow]
  omega

/-- `cmd[7:0]` as a number. -/
theorem dataField_toNat (cmd : Word) : (dataField cmd).toNat = cmd.toNat % 256 := by
  simp [dataField]

/-- Zero extension keeps the number (00_scope.md R8). -/
@[simp] theorem zext16_toNat (v : Byte) : (zext16 v).toNat = v.toNat := by
  rw [zext16, BitVec.toNat_setWidth, Nat.mod_eq_of_lt (Nat.lt_trans v.isLt (by decide))]

/-- The check of WellFormed.lean on UPDATE, as arithmetic (30_encoding.md R47). -/
@[simp] theorem wellFormed_update (d : Word) : WellFormed (.update d) ↔ d.toNat ≤ 255 := by
  simp [WellFormed, Instr.wellFormed]

/-- The decoder's four cases (R50), by the numbers in the two fields. -/
theorem decode_cases (cmd : Word) :
    (cmd.toNat = 0 ∧ decode cmd = .command .nop) ∨
    (cmd.toNat = 256 ∧ decode cmd = .command .clear) ∨
    (cmd.toNat / 256 = 2 ∧ decode cmd = .command (.update (zext16 (dataField cmd)))) ∨
    (cmd.toNat ≠ 0 ∧ cmd.toNat ≠ 256 ∧ cmd.toNat / 256 ≠ 2 ∧ decode cmd = .reserved (reservedClass cmd) cmd) := by
  have ho := opField_toNat cmd
  have hd := dataField_toNat cmd
  unfold decode
  simp only [← BitVec.toNat_inj, ho, hd]
  have e0 : (0x00 : Byte).toNat = 0 := rfl
  have e1 : (0x01 : Byte).toNat = 1 := rfl
  have e2 : (0x02 : Byte).toNat = 2 := rfl
  simp only [e0, e1, e2]
  split
  · left; exact ⟨by omega, rfl⟩
  · split
    · right; left; exact ⟨by omega, rfl⟩
    · split
      · right; right; left; exact ⟨‹_›, rfl⟩
      · right; right; right
        refine ⟨?_, ?_, ‹_›, rfl⟩ <;> omega

/-- A word that decodes to RESERVED is the word RESERVED names (R50). -/
theorem decode_reserved_word {cmd w : Word} {c : ReservedClass} (h : decode cmd = .reserved c w) : w = cmd := by
  rcases decode_cases cmd with ⟨-, h'⟩ | ⟨-, h'⟩ | ⟨-, h'⟩ | ⟨-, -, -, h'⟩ <;> rw [h'] at h <;> simp_all

/-- A word is reserved exactly when it decodes to RESERVED (R49, R50). -/
theorem isReserved_iff {cmd : Word} : isReserved cmd = true ↔ ∃ c, decode cmd = .reserved c cmd := by
  unfold isReserved
  cases h : decode cmd with
  | command i => simp
  | reserved c w => simp [decode_reserved_word h]

/-- A word is not reserved exactly when it decodes to a command (R49, R50). -/
theorem not_isReserved_iff {cmd : Word} : isReserved cmd = false ↔ ∃ i, decode cmd = .command i := by
  unfold isReserved
  cases h : decode cmd <;> simp

/-- Whatever the decoder reads is well-formed. -/
theorem decode_wellFormed {cmd : Word} {i : Instr} (h : decode cmd = .command i) : WellFormed i := by
  rcases decode_cases cmd with ⟨-, h'⟩ | ⟨-, h'⟩ | ⟨-, h'⟩ | ⟨-, -, -, h'⟩ <;> rw [h'] at h
  · cases h; rfl
  · cases h; rfl
  · cases h
    rw [wellFormed_update, zext16_toNat, dataField_toNat]
    omega
  · cases h

end Sys2Proof
end

