-- ==== Sys2Proof/Laws/State.lean ====
section
/-! SUPPORT. One lemma per field and update of State: what each update leaves in each field. -/

namespace Sys2Proof.Machine

@[simp] theorem writeAccumulators_a (s : State) (v : Cell × Cell) : (s.writeAccumulators v).a = v.1 := rfl
@[simp] theorem writeAccumulators_b (s : State) (v : Cell × Cell) : (s.writeAccumulators v).b = v.2 := rfl
@[simp] theorem writeAccumulators_pending (s : State) (v : Cell × Cell) : (s.writeAccumulators v).pending = s.pending := rfl
@[simp] theorem writeAccumulators_reads (s : State) (v : Cell × Cell) : (s.writeAccumulators v).reads = s.reads := rfl

@[simp] theorem zeroAccumulators_a (s : State) : s.zeroAccumulators.a = some 0 := rfl
@[simp] theorem zeroAccumulators_b (s : State) : s.zeroAccumulators.b = some 0 := rfl
@[simp] theorem zeroAccumulators_pending (s : State) : s.zeroAccumulators.pending = s.pending := rfl
@[simp] theorem zeroAccumulators_reads (s : State) : s.zeroAccumulators.reads = s.reads := rfl

@[simp] theorem presentCommand_a (cmd : Word) (s : State) : (presentCommand cmd s).a = s.a := rfl
@[simp] theorem presentCommand_b (cmd : Word) (s : State) : (presentCommand cmd s).b = s.b := rfl
@[simp] theorem presentCommand_reads (cmd : Word) (s : State) : (presentCommand cmd s).reads = s.reads := rfl
@[simp] theorem presentCommand_pending (cmd : Word) (s : State) :
    (presentCommand cmd s).pending = .command cmd :: s.pending := rfl

/-- Two cells that hold values are read together. -/
theorem accumulators_of_some {s : State} {x y : Word} (ha : s.a = some x) (hb : s.b = some y) :
    s.accumulators = some (x, y) := by
  simp [State.accumulators, ha, hb]

/-- The accumulators are read exactly when both cells hold those values. -/
theorem accumulators_eq_some {s : State} {v : Word × Word} :
    s.accumulators = some v ↔ s.a = some v.1 ∧ s.b = some v.2 := by
  obtain ⟨a, b, p, r⟩ := s
  cases a <;> cases b <;> simp [State.accumulators, Prod.ext_iff]

/-- Nothing is read exactly when a cell is `⊥` (10_state.md R22). -/
theorem accumulators_eq_none {s : State} : s.accumulators = none ↔ s.a = none ∨ s.b = none := by
  obtain ⟨a, b, p, r⟩ := s
  cases a <;> cases b <;> simp [State.accumulators]

/-- What the accumulators hold depends on `a` and `b` alone. -/
theorem accumulators_congr {s t : State} (ha : s.a = t.a) (hb : s.b = t.b) : s.accumulators = t.accumulators := by
  simp [State.accumulators, ha, hb]

end Sys2Proof.Machine
end

