-- ==== Sys2Proof/Laws/Ops.lean ====
section
/-! SUPPORT. What each shared operation does, said once: the reduction, the result port, the meanings and one interaction. -/

namespace Sys2Proof.Machine

/-- The reduction (41_accumulate.md R60) as arithmetic on literals. -/
theorem red255_eq (x : Nat) : red255 x = x % 255 := rfl

/-- A reduced value fits a register (R63). -/
theorem ofNat_red255_toNat (x : Nat) : (BitVec.ofNat 16 (red255 x)).toNat = x % 255 := by
  simp [red255_eq]
  omega

/-- Stage A as arithmetic (R61). -/
theorem stageA_toNat (a d : Word) : (stageA a d).toNat = (a.toNat + d.toNat) % 255 := ofNat_red255_toNat _

/-- Stage B as arithmetic (R61). -/
theorem stageB_toNat (b a' : Word) : (stageB b a').toNat = (b.toNat + a'.toNat) % 255 := ofNat_red255_toNat _

/-- Both values UPDATE writes lie in [0, 254] (10_state.md R16). -/
theorem accumulate_inRange (d : Word) (v : Option (Word × Word)) :
    Cell.InRange (accumulate d v).1 ∧ Cell.InRange (accumulate d v).2 := by
  cases v with
  | none => simp [accumulate, Cell.InRange]
  | some v =>
    simp only [accumulate, reducePair, Cell.InRange, Option.all_some, decide_eq_true_eq, stageA_toNat, stageB_toNat]
    omega

/-- UPDATE writes both cells or neither (R22). -/
theorem accumulate_isSome (d : Word) (v : Option (Word × Word)) :
    (accumulate d v).1.isSome = v.isSome ∧ (accumulate d v).2.isSome = v.isSome := by
  cases v <;> simp [accumulate]

/-- The port is read exactly when both cells hold values (R24). -/
theorem readPort_eq_ok {s : State} {r : Word} :
    readPort s = .ok r ↔ ∃ v, s.accumulators = some v ∧ packResult v = r := by
  unfold readPort
  cases s.accumulators <;> simp

/-- The port faults exactly when a cell is `⊥` (R28). -/
theorem readPort_eq_error {s : State} {f : Fault} : readPort s = .error f ↔ s.accumulators = none := by
  unfold readPort
  cases f
  cases s.accumulators <;> simp

/-- Packing within the range is `b * 256 + a` (R24). -/
theorem packResult_toNat {a b : Word} (ha : a.toNat ≤ 254) (hb : b.toNat ≤ 254) :
    (packResult (a, b)).toNat = b.toNat * 256 + a.toNat := by
  have h : b.toNat <<< 8 % 65536 = b.toNat * 256 := by
    rw [Nat.shiftLeft_eq]; omega
  have h2 : (b.toNat <<< 8) ||| a.toNat = b.toNat <<< 8 + a.toNat :=
    (Nat.shiftLeft_add_eq_or_of_lt (by omega) _).symm
  simp only [packResult, BitVec.toNat_or, BitVec.toNat_shiftLeft, h]
  rw [Nat.shiftLeft_eq] at h2
  simpa using h2

/-- What each command does to the state (40_control.md R57, R58, 41_accumulate.md R62): it always goes on. -/
theorem exec_eq (i : Instr) (s : State) :
    exec i s = .next (match i with
      | .nop => s
      | .clear => s.zeroAccumulators
      | .update d => s.writeAccumulators (accumulate d s.accumulators)) := by
  cases i <;> rfl

/-- Everything one interaction can do when it goes on. -/
theorem interact_next {e : Interaction} {s t : State} (h : interact e s = .next t) :
    (∃ cmd, e = .command cmd ∧ decode cmd = .command .nop ∧ t = s) ∨
    (∃ cmd, e = .command cmd ∧ decode cmd = .command .clear ∧ t = s.zeroAccumulators) ∨
    (∃ cmd d, e = .command cmd ∧ decode cmd = .command (.update d) ∧
      t = s.writeAccumulators (accumulate d s.accumulators)) ∨
    (e = .reset ∧ t = s.zeroAccumulators) ∨
    (∃ v, e = .readResult ∧ readPort s = .ok v ∧ t = { s with reads := s.reads ++ [v] }) := by
  cases e with
  | command cmd =>
    simp only [interact, acceptCommand] at h
    split at h
    · rename_i i hd
      cases i <;> cases h
      · exact .inl ⟨cmd, rfl, hd, rfl⟩
      · exact .inr (.inl ⟨cmd, rfl, hd, rfl⟩)
      · exact .inr (.inr (.inl ⟨cmd, _, rfl, hd, rfl⟩))
    · cases h
  | reset => cases h; exact .inr (.inr (.inr (.inl ⟨rfl, rfl⟩)))
  | readResult =>
    simp only [interact, acceptRead] at h
    split at h
    · rename_i v hv
      cases h
      exact .inr (.inr (.inr (.inr ⟨v, rfl, hv, rfl⟩)))
    · cases h

/-- The one way an interaction can fault (60_exceptions.md R77). -/
theorem interact_fault {e : Interaction} {s : State} {f : Fault} :
    interact e s = .fault f ↔ e = .readResult ∧ s.accumulators = none := by
  cases e with
  | command cmd =>
    simp only [interact, acceptCommand]
    split
    · rename_i i _; simp [exec_eq i s]
    · simp
  | reset => simp [interact, acceptReset]
  | readResult =>
    simp only [interact, acceptRead]
    split
    · rename_i v hv
      simp only [readPort_eq_ok] at hv
      obtain ⟨v', hv', -⟩ := hv
      simp [hv']
    · rename_i g hg
      rw [readPort_eq_error] at hg
      cases f; cases g
      simp [hg]

/-- A reserved word is refused under its own number (60_exceptions.md R76). -/
theorem acceptCommand_reserved {cmd : Word} (h : isReserved cmd = true) (s : State) :
    acceptCommand cmd s = .refused (.reservedCommand cmd) := by
  obtain ⟨c, hc⟩ := isReserved_iff.mp h
  simp only [acceptCommand, hc]

/-- The one way an interaction can be refused (60_exceptions.md R76). -/
theorem interact_refused {e : Interaction} {s : State} {x : Refusal} (h : interact e s = .refused x) :
    ∃ cmd, e = .command cmd ∧ isReserved cmd = true ∧ x = .reservedCommand cmd := by
  cases e with
  | command cmd =>
    cases hr : isReserved cmd with
    | true =>
      rw [interact, acceptCommand_reserved hr] at h
      cases h
      exact ⟨cmd, rfl, hr, rfl⟩
    | false =>
      obtain ⟨i, hi⟩ := not_isReserved_iff.mp hr
      simp [interact, acceptCommand, hi, exec_eq i s] at h
  | reset => cases h
  | readResult =>
    simp only [interact, acceptRead] at h
    split at h <;> cases h

/-- No interaction touches what the host has pending. -/
theorem interact_pending {e : Interaction} {s t : State} (h : interact e s = .next t) : t.pending = s.pending := by
  obtain ⟨_, _, _, rfl⟩ | ⟨_, _, _, rfl⟩ | ⟨_, _, _, _, rfl⟩ | ⟨_, rfl⟩ | ⟨_, _, _, rfl⟩ := interact_next h <;> rfl

/-- The interaction a step applies is the oldest one pending (20_memory.md R36). -/
theorem step_of_pending {s : State} {e : Interaction} {rest : List Interaction} (h : s.pending = e :: rest) :
    step s = interact e { s with pending := rest } := by
  simp [step, takeNext, h]

/-- Everything a step can be: idle (60_exceptions.md R88), or one interaction. -/
theorem step_cases (s : State) :
    (s.pending = [] ∧ step s = .next s) ∨
    (∃ e rest, s.pending = e :: rest ∧ step s = interact e { s with pending := rest }) := by
  cases h : s.pending with
  | nil => simp [step, takeNext, h]
  | cons e rest => exact .inr ⟨e, rest, rfl, step_of_pending h⟩

end Sys2Proof.Machine
end

