-- ==== Sys2Proof/Laws/Run.lean ====
section
/-! SUPPORT. Runs, one interaction at a time, and how their marks stay. -/

namespace Sys2Proof.Machine

@[simp] theorem run_nil (r : RunRecord) : r.run [] = r := rfl

@[simp] theorem run_cons (r : RunRecord) (e : Interaction) (es : List Interaction) :
    r.run (e :: es) = (r.apply e).run es := rfl

/-- A run of two lists is the second run after the first (20_memory.md R36). -/
theorem run_append (r : RunRecord) (es fs : List Interaction) : r.run (es ++ fs) = (r.run es).run fs := by
  simp [RunRecord.run]

/-- An interaction that goes on changes the state alone. -/
theorem apply_next {r : RunRecord} {e : Interaction} {t : State} (hr : r.refusal = none)
    (h : interact e r.state = .next t) : r.apply e = { r with state := t } := by
  simp [RunRecord.apply, hr, h]

/-- A refusal mark stays for good, and nothing more is applied (60_exceptions.md R76). -/
theorem run_of_refused {r : RunRecord} {x : Refusal} (h : r.refusal = some x) (es : List Interaction) : r.run es = r := by
  induction es with
  | nil => rfl
  | cons e es ih => rw [run_cons, RunRecord.apply, h, ih]

/-- A recorded fault stays through one interaction (60_exceptions.md R77). -/
theorem apply_fault {r : RunRecord} {f : Fault} (h : r.fault = some f) (e : Interaction) : (r.apply e).fault = some f := by
  unfold RunRecord.apply
  split
  · exact h
  · split <;> simp [h]

/-- A command's word that decodes to an instruction runs it (10_state.md R25). -/
theorem interact_command {cmd : Word} {i : Instr} (h : decode cmd = .command i) (s : State) :
    interact (.command cmd) s = exec i s := by
  simp [interact, acceptCommand, h]

end Sys2Proof.Machine
end

