-- ==== Sys2Proof/Machine/Flags.lean ====
section
/-! DEFINITION. The block has no flags, condition codes or predicates (10_state.md R19): no carry or overflow flag exists, "and no flag would ever be set" (41_accumulate.md R62, R63). There is no flag computation to define, and this file holds none. -/
end

