-- ==== Sys2Proof/Tests/Slice0.lean ====
section
/-! SUPPORT. The model's own tests. Expected values come from 95_test_vectors.md (named by its ids) or from the rule named; the `test_witness_` theorems show that the hypotheses of each statement can be met, at boundary values. -/

namespace Sys2Proof.Tests

open Sys2Proof.Machine

/-- The next state of an outcome, if it has one. -/
def nextOf (o : Host.Outcome State Fault Refusal) : Option State :=
  match o with
  | .next s => some s
  | .fault _ => none
  | .refused _ => none

/-- The fault of an outcome, if it is one. -/
def faultOf (o : Host.Outcome State Fault Refusal) : Option Fault :=
  match o with
  | .next _ => none
  | .fault f => some f
  | .refused _ => none

/-- The refusal of an outcome, if it is one. -/
def refusalOf (o : Host.Outcome State Fault Refusal) : Option Refusal :=
  match o with
  | .next _ => none
  | .fault _ => none
  | .refused x => some x

/-- A state with given register values and pending interactions. -/
def holding (a b : Word) (pending : List Interaction) : State := { a := some a, b := some b, pending, reads := [] }

/-- The power-up state with pending interactions. -/
def unset (pending : List Interaction) : State := { State.powerUp with pending }

/-- The registers after one step. -/
def pairAfter (s : State) : Option (Cell × Cell) := (nextOf (step s)).map fun t => (t.a, t.b)

/-! ## The one check of WellFormed -/

theorem test_update_256_ill_formed : ¬ WellFormed (.update 256) := by decide
theorem test_update_255_well_formed : WellFormed (.update 255) := by decide

/-! ## Decoding: words written out from R48 -/

theorem test_decode_nop : decode 0b0000000000000000 = .command .nop := by decide
theorem test_decode_clear : decode 0b0000000100000000 = .command .clear := by decide
/-- V-DEC: `0x0261` is UPDATE with d = 97. -/
theorem test_decode_update : decode 0b0000001001100001 = .command (.update 97) := by decide
/-- V-DEC: the reserved words. -/
theorem test_decode_reserved :
    [0x0001, 0x00FF, 0x0101, 0x0180, 0x0300, 0x8200, 0xFF00, 0xFFFF].all isReserved = true := by decide
/-- R47: zero extension, the top bit of the byte set. -/
theorem test_decode_zero_extends : decode 0x0280 = .command (.update 0x0080) := by decide
theorem test_table_words :
    decodeTableWord 16 0x0000 = some .nop ∧ decodeTableWord 16 0x0100 = some .clear ∧
    decodeTableWord 16 0x0236 = some (.update 54) ∧ decodeTableWord 16 0x0300 = none ∧
    decodeTableWord 17 0x0100 = none := by decide

/-! ## The commands -/

/-- V-NOP. -/
theorem test_nop_keeps : pairAfter (holding 10 20 [.command 0x0000]) = some (some 10, some 20) := by decide
theorem test_nop_keeps_undefined : pairAfter (unset [.command 0x0000]) = some (none, none) := by decide

/-- V-CLR. -/
theorem test_clear_zeroes : pairAfter (holding 240 200 [.command 0x0100]) = some (some 0, some 0) := by decide
theorem test_clear_from_undefined : pairAfter (unset [.command 0x0100]) = some (some 0, some 0) := by decide

/-- V-UPD rows 1 to 15: before, word, after. -/
theorem test_update_vectors : ([
    (0, 0, 0x0200, 0, 0), (0, 0, 0x0201, 1, 1), (0, 0, 0x02FE, 254, 254), (0, 0, 0x02FF, 0, 0),
    (254, 254, 0x0201, 0, 254), (254, 254, 0x02FF, 254, 253), (254, 254, 0x0200, 254, 253),
    (254, 0, 0x0200, 254, 254), (100, 200, 0x0236, 154, 99), (1, 254, 0x02FD, 254, 253),
    (0, 254, 0x02FF, 0, 254), (200, 100, 0x0237, 0, 100), (10, 20, 0x0205, 15, 35),
    (128, 128, 0x027F, 0, 128), (127, 127, 0x0280, 0, 127)] : List (Word × Word × Word × Word × Word)).all
    (fun (a, b, w, a', b') => decide (pairAfter (holding a b [.command w]) = some (some a', some b'))) = true := by decide

/-- V-UPD row 16, and R62 with one register undefined only. -/
theorem test_update_undefined :
    pairAfter (unset [.command 0x0207]) = some (none, none) ∧
    pairAfter { holding 5 9 [.command 0x0207] with b := none } = some (none, none) := by decide

/-! ## The other interactions -/

/-- V-UPD row 9: (154, 99) reads `0x639A`. -/
theorem test_read_packs :
    (nextOf (step (holding 154 99 [.readResult]))).map (·.reads) = some [0x639A] := by decide
theorem test_read_undefined_faults : faultOf (step (unset [.readResult])) = some .undefinedResult := by decide
/-- V-CLR, last row. -/
theorem test_reset_event : pairAfter (holding 10 20 [.reset]) = some (some 0, some 0) := by decide
/-- P7c. -/
theorem test_reserved_refused :
    refusalOf (step (holding 5 5 [.command 0x0300])) = some (.reservedCommand 0x0300) := by decide
/-- R79. -/
theorem test_reset_beats_command : arriving true (some 0x0207) = some .reset := by decide
/-- R18, R25: the word placed is the next command, before what was pending. -/
theorem test_fetch_word_runs_next :
    pairAfter ((holding 10 20 [.reset]).withFetchWord 16 0x0205) = some (some 15, some 35) := by decide

/-! ## The assembler (R53 to R56) -/

theorem test_assemble_forms :
    assembleLine "update 97".toList = .ok [.command 0x0261] ∧
    assembleLine "  update 0x61 ; a".toList = .ok [.command 0x0261] ∧
    assembleLine "update 'a'".toList = .ok [.command 0x0261] ∧
    assembleLine "reset".toList = .ok [.reset] := by decide
theorem test_assemble_rejects :
    assembleLine "update 256".toList = .error .operandOutOfRange ∧
    assembleLine "update".toList = .error .missingOperand ∧
    assembleLine "clear 1".toList = .error .operandNotAllowed ∧
    assembleLine "NOP".toList = .error .unknownMnemonic := by decide
theorem test_assemble_pseudo :
    assembleLine "checksum 1, 2".toList = .ok [.command 0x0100, .command 0x0201, .command 0x0202] ∧
    assembleLine "update.ascii \"ab\"".toList = .ok [.command 0x0261, .command 0x0262] ∧
    assembleLine "checksum".toList = .ok [.command 0x0100] := by decide
theorem test_listing : listing 0x02FE = "update 0xFE".toList ∧ listing 0x0300 = ".reserved 0x0300".toList := by decide

/-! ## Witnesses: the hypotheses of the statements can be met -/

/-- A good run's start. -/
def goodStart : RunRecord := .start (holding 5 9 [])

theorem test_witness_OpcodeMapSelectsByMatchAndMask :
    Instr.nop.row.Selects 0x0000 ∧ Instr.clear.row.Selects 0x0100 ∧ (Instr.update 0).row.Selects 0x02FF := by decide
theorem test_witness_DecoderFollowsThePseudocode :
    ((0x0000 : Word).toNat / 256 = 0 ∧ (0x0000 : Word).toNat % 256 = 0) ∧
    ((0x0100 : Word).toNat / 256 = 1 ∧ (0x0100 : Word).toNat % 256 = 0) ∧
    (0x02FF : Word).toNat / 256 = 2 ∧
    ([0x0001, 0x00FF, 0x0101, 0x01FF, 0x0300, 0xFFFF] : List Word).all (fun w => decide
      (¬(w.toNat / 256 = 0 ∧ w.toNat % 256 = 0) ∧ ¬(w.toNat / 256 = 1 ∧ w.toNat % 256 = 0) ∧ w.toNat / 256 ≠ 2)) = true := by
  decide
theorem test_witness_DecodeAndEncodeAgree :
    (255 : Word).toNat ≤ 255 ∧ WellFormed (.update 255) ∧ decode 0x02FF = .command (.update 255) := by decide
theorem test_witness_UpdateOperandIsZeroExtendedData : decode 0x02FF = .command (.update 255) := by decide
theorem test_witness_StepRunsTheDecodedCommand :
    (holding 1 2 [.command 0x02FF, .reset]).pending = .command 0x02FF :: [.reset] ∧
    decode 0x02FF = .command (.update 255) := by decide
theorem test_witness_PresentedCommandRunsNext : WellFormed .nop ∧ WellFormed .clear ∧ WellFormed (.update 255) := by decide
theorem test_witness_ReservedWordMarksTheRunForGood :
    isReserved 0x0105 = true ∧ (holding 5 5 [.command 0x0105]).pending = .command 0x0105 :: [] ∧
    goodStart.refusal = none := by decide
theorem test_witness_UndefinedReadIsRecordedForGood :
    (unset [.readResult]).pending = .readResult :: [] ∧ (unset []).a = none ∧
    (RunRecord.start .powerUp).refusal = none ∧ (RunRecord.start .powerUp).state.b = none := by decide
theorem test_witness_StepsStopForTwoCausesOnly :
    faultOf (step (unset [.readResult])) = some .undefinedResult ∧
    refusalOf (step (holding 0 0 [.command 0xFFFF])) = some (.reservedCommand 0xFFFF) := by decide
theorem test_witness_IdleStepKeepsTheState : State.reset.pending = [] := by decide
theorem test_witness_NopChangesNothing :
    (0x0001 : Nat) ≤ 0x00FF ∧ isReserved (BitVec.ofNat 16 0x00FF) = true ∧
    (holding 254 1 []).InRange ∧ (holding 254 1 []).Defined ∧
    (nextOf (exec (.update 0x0000) (holding 254 1 []))).isSome = true := by decide
theorem test_witness_ClearStartsANewChecksum : (0x0101 : Nat) ≤ 0x01FF ∧ isReserved (BitVec.ofNat 16 0x01FF) = true := by decide
theorem test_witness_UpdateAddsOneByte :
    (255 : Word).toNat ≤ 255 ∧ (holding 254 254 []).a = some 254 ∧ (holding 254 254 []).b = some 254 ∧
    (unset []).a = none ∧ ({ holding 1 1 [] with b := none } : State).b = none := by decide
theorem test_witness_UpdateShowsOnTheResultPort :
    (holding 254 254 []).InRange ∧ (nextOf (exec (.update 255) (holding 254 254 []))).isSome = true := by decide
theorem test_witness_CommandsDependOnTheAccumulatorsOnly :
    (holding 3 4 []).a = (holding 3 4 [.reset]).a ∧ (holding 3 4 []).b = (holding 3 4 [.reset]).b ∧
    (nextOf (exec (.update 9) (holding 3 4 []))).isSome = true ∧
    (nextOf (exec (.update 9) (holding 3 4 [.reset]))).isSome = true := by decide
theorem test_witness_ReductionIsRemainderMod255 : 255 ∣ 510 := by decide
theorem test_witness_SumsNeverOverflow :
    (254 : Word).toNat ≤ 254 ∧ (255 : Word).toNat ≤ 255 := by decide
theorem test_witness_ConditionalSubtractIsExact :
    (509 : Nat) ≤ 509 ∧ (254 : Word).toNat ≤ 254 ∧ (255 : Word).toNat ≤ 255 := by decide
theorem test_witness_EndAroundFoldFailsAt255Only : (256 : Nat) ≤ 509 ∧ (509 : Nat) ≤ 509 := by decide
theorem test_witness_EveryStepKeepsTheRange :
    (holding 254 254 [.command 0x02FF]).InRange ∧ (nextOf (step (holding 254 254 [.command 0x02FF]))).isSome = true := by decide
theorem test_witness_EveryStepKeepsTheCellsAlike :
    (unset [.command 0x02FF]).SameDefinedness ∧ (nextOf (step (unset [.command 0x02FF]))).isSome = true := by decide
theorem test_witness_EveryStepKeepsDefinedRegisters :
    (holding 0 0 [.readResult]).Defined ∧ (nextOf (step (holding 0 0 [.readResult]))).isSome = true := by decide
theorem test_witness_UndefinedCellTransitions : State.powerUp.a = none ∧ State.powerUp.b = none := by decide
theorem test_witness_PowerUpStaysUndefinedUntilResetOrClear :
    ∀ e ∈ [Interaction.command 0x0000, .command 0x0207, .command 0x0101, .readResult],
      e ≠ .reset ∧ e ≠ .command 0x0100 := by decide
theorem test_witness_OnlyResetClearAndUpdateWrite :
    (nextOf (step (holding 1 2 [.readResult]))).isSome = true ∧ writesAccumulators .readResult = false ∧
    writesAccumulators (.command 0x0000) = false := by decide
theorem test_witness_ReadGivesThePackedPair :
    (holding 254 254 [.readResult, .readResult]).pending = .readResult :: .readResult :: [] ∧
    (holding 254 254 []).a = some 254 ∧ (254 : Word).toNat ≤ 254 := by decide
theorem test_witness_ResetWritesZero : (unset [.reset]).pending = .reset :: [] := by decide
theorem test_witness_ResetBeatsAConcurrentCommand : goodStart.refusal = none := by decide
theorem test_witness_ClearAndResetHaveTheSameEffect :
    (holding 3 4 [.command 0x0100]).pending = .command 0x0100 :: [] := by decide
theorem test_witness_NothingSurvivesReset : (goodStart.run [.command 0x0210]).Good := by decide
theorem test_witness_DefinedRunsAreGoodWithoutReservedWords : State.reset.Defined := by decide
theorem test_witness_CommandSequenceComputesFletcher16 :
    goodStart.Good ∧ 2 ≤ ([1, 2] : List Byte).length := by decide
theorem test_witness_CountBeyondTheDataIsRefused :
    ([1, 2] : List Byte).length < 3 ∧ 2 ≤ ([1, 2] : List Byte).length ∧ ([1, 2] : List Byte)[1]? = some 2 := by decide
theorem test_witness_EmptyInputGivesZero : goodStart.Good := by decide
theorem test_witness_ResultIsThePrefixChecksum :
    goodStart.Good ∧ 0 ≤ ([1, 2] : List Byte).length ∧ 2 ≤ ([1, 2] : List Byte).length := by decide
theorem test_witness_ClosedFormOfTheAccumulators : goodStart.Good := by decide
theorem test_witness_ReachableResults :
    State.reset.InRange ∧ ((RunRecord.start .reset).run [.command 0x02FE]).result = some 0xFEFE := by decide
theorem test_witness_ZeroAndFFAreTheSameInput :
    goodStart.Good ∧ ∀ d ∈ ([0x00, 0xFF] : List Byte), d = 0x00 ∨ d = 0xFF := by decide
theorem test_witness_ZeroBytes :
    (holding 254 254 []).InRange ∧ (holding 0 254 []).InRange ∧ goodStart.Good ∧
    ∀ z ∈ ([0x00, 0xFF] : List Byte), z = 0x00 ∨ z = 0xFF := by decide
theorem test_witness_ForgottenClearJoinsTheSequences : goodStart.Good := by decide
theorem test_witness_ClearIsIdempotentUpdateIsNot : (nextOf (exec .clear (holding 1 2 []))).isSome = true := by decide
theorem test_witness_AssemblerRejections :
    numberValue "256".toList = some 256 ∧ assembleLine "hlt".toList = .error .unknownMnemonic ∧
    Interaction.command 0x02FF ∈ emitted ["update 255".toList, "update 256".toList] := by decide
theorem test_witness_ListingAssemblesBack : isReserved 0xFFFF = true ∧ isReserved 0x02FF = false ∧ (255 : Nat) ≤ 255 := by decide
theorem test_witness_PseudoInstructionsExpand :
    goodStart.Good ∧ numberValue "255".toList = some 255 ∧ (Char.ofNat 127).toNat < 128 ∧
    byteOperand (.word "0xFF".toList) = .ok 0xFF ∧ byteOperand (.char 'a') = .ok 0x61 ∧
    "ab;".toList.all (fun c => decide (c.toNat < 128)) = true ∧ doubleQuote ∉ "ab;".toList ∧
    [Char.ofNat 128].any (fun c => decide (128 ≤ c.toNat)) = true := by decide
theorem test_witness_PlatformByteView :
    (holding 254 253 []).InRange ∧ (holding 254 253 []).a = some 254 ∧ (holding 254 253 []).b = some 253 ∧
    (3 : Nat) ≠ 1 ∧ (3 : Nat) ≠ 1 + 1 := by decide
theorem test_witness_BlocksShareNoState :
    (match stepBlock [unset [.reset], holding 1 2 []] ⟨0, by decide⟩ with
      | .next after => after[1]?
      | .fault _ => none
      | .refused _ => none) = some (holding 1 2 []) := by decide

end Sys2Proof.Tests
end

section
/-! SUPPORT. The round trip of a well-formed instruction, what a step leaves in the accumulators, and the read of `result`:
facts the statements of 10_state.md share. -/

namespace Sys2Proof.Machine

/-- UPDATE's word as a number (30_encoding.md R51): the opcode and the operand do not overlap. -/
theorem encode_update_toNat {d : Word} (h : d.toNat ≤ 255) : (encode (.update d)).toNat = 512 + d.toNat := by
  have hor := Nat.shiftLeft_add_eq_or_of_lt (show d.toNat < 2 ^ 8 by omega) 2
  rw [Nat.shiftLeft_eq] at hor
  simpa [encode] using hor.symm

/-- The decoder undoes the encoder on well-formed instructions (30_encoding.md R51). -/
theorem decode_encode {i : Instr} (h : WellFormed i) : decode (encode i) = .command i := by
  cases i with
  | nop => rfl
  | clear => rfl
  | update d =>
    have hd := (wellFormed_update d).mp h
    have hw := encode_update_toNat hd
    have hop : (encode (.update d)).toNat / 256 = 2 := by omega
    have hdata : zext16 (dataField (encode (.update d))) = d := by
      apply BitVec.eq_of_toNat_eq
      rw [zext16_toNat, dataField_toNat]
      omega
    rcases decode_cases (encode (.update d)) with ⟨h0, -⟩ | ⟨h1, -⟩ | ⟨-, hu⟩ | ⟨-, -, hne, -⟩
    · omega
    · omega
    · rw [hu, hdata]
    · exact absurd hop hne

/-- A table row of 16 bits holds its word whole (30_encoding.md R45). -/
@[simp] theorem tableWord_toNat (w : Word) : tableWord 16 w.toNat = w := by
  rw [tableWord, Nat.mod_eq_of_lt w.isLt, BitVec.ofNat_toNat, BitVec.setWidth_eq]

/-- A pending command word that decodes is what the step runs (10_state.md R25, 20_memory.md R36). -/
theorem step_command {s : State} {cmd : Word} {rest : List Interaction} {i : Instr}
    (hp : s.pending = .command cmd :: rest) (hd : decode cmd = .command i) :
    step s = exec i { s with pending := rest } := by
  rw [step_of_pending hp, interact_command hd]

/-- What an interaction that goes on leaves in the accumulators: the old values, or, for a writer (10_state.md R14, R15),
the zeros of reset and CLEAR or the pair UPDATE computes. -/
theorem interact_accumulators {e : Interaction} {s t : State} (h : interact e s = .next t) :
    (t.a = s.a ∧ t.b = s.b) ∨
    (writesAccumulators e = true ∧
      ((t.a = some 0 ∧ t.b = some 0) ∨
       ∃ d, t.a = (accumulate d s.accumulators).1 ∧ t.b = (accumulate d s.accumulators).2)) := by
  obtain ⟨cmd, rfl, hd, rfl⟩ | ⟨cmd, rfl, hd, rfl⟩ | ⟨cmd, d, rfl, hd, rfl⟩ | ⟨rfl, rfl⟩ | ⟨v, rfl, -, rfl⟩ :=
    interact_next h
  · exact .inl ⟨rfl, rfl⟩
  · exact .inr ⟨by simp [writesAccumulators, hd], .inl ⟨rfl, rfl⟩⟩
  · exact .inr ⟨by simp [writesAccumulators, hd], .inr ⟨d, rfl, rfl⟩⟩
  · exact .inr ⟨rfl, .inl ⟨rfl, rfl⟩⟩
  · exact .inl ⟨rfl, rfl⟩

/-- What a step leaves in the accumulators: `interact_accumulators` at the oldest pending interaction, or an idle step. -/
theorem step_accumulators {s t : State} (h : step s = .next t) :
    (t.a = s.a ∧ t.b = s.b) ∨
    ((∃ e, s.pending.head? = some e ∧ writesAccumulators e = true) ∧
      ((t.a = some 0 ∧ t.b = some 0) ∨
       ∃ d, t.a = (accumulate d s.accumulators).1 ∧ t.b = (accumulate d s.accumulators).2)) := by
  obtain ⟨-, hidle⟩ | ⟨e, rest, hp, hstep⟩ := step_cases s
  · cases hidle.symm.trans h
    exact .inl ⟨rfl, rfl⟩
  · obtain hsame | ⟨hw, hwritten⟩ := interact_accumulators (hstep.symm.trans h)
    · exact .inl hsame
    · exact .inr ⟨⟨e, by rw [hp]; rfl, hw⟩, hwritten⟩

/-- An invariant of the pair of cells: what holds of the zeros and of every pair UPDATE makes from cells that meet it is
kept by every step. -/
theorem step_keeps {P : Cell → Cell → Prop} (zero : P (some 0) (some 0))
    (update : ∀ (d : Word) (s : State), P s.a s.b →
      P (accumulate d s.accumulators).1 (accumulate d s.accumulators).2)
    {s t : State} (hs : P s.a s.b) (h : step s = .next t) : P t.a t.b := by
  obtain ⟨ha, hb⟩ | ⟨-, ⟨ha, hb⟩ | ⟨d, ha, hb⟩⟩ := step_accumulators h
  · rwa [ha, hb]
  · rwa [ha, hb]
  · rw [ha, hb]
    exact update d s hs

/-- A read from defined registers gives the host the packed pair and changes nothing else (10_state.md R24). -/
theorem interact_readResult {s : State} {x y : Word} (ha : s.a = some x) (hb : s.b = some y) :
    interact .readResult s = .next { s with reads := s.reads ++ [packResult (x, y)] } := by
  simp [interact, acceptRead, readPort, accumulators_of_some ha hb]

/-- A step whose oldest pending interaction is a read from defined registers (10_state.md R24). -/
theorem step_readResult {s : State} {rest : List Interaction} {x y : Word} (hp : s.pending = .readResult :: rest)
    (ha : s.a = some x) (hb : s.b = some y) :
    step s = .next { s with pending := rest, reads := s.reads ++ [packResult (x, y)] } := by
  rw [step_of_pending hp]
  exact interact_readResult ha hb

end Sys2Proof.Machine
end

section
/-! The statements of 10_state.md, settled. -/

namespace Sys2Proof.Machine

/-- Settles O26: the zeros are in range, and so is whatever UPDATE writes, from any pair (R16). -/
theorem everyStepKeepsTheRange : Obligations.EveryStepKeepsTheRange := fun _ _ hs h =>
  step_keeps (P := fun a b => a.InRange ∧ b.InRange) (by decide) (fun d s _ => accumulate_inRange d s.accumulators) hs h

/-- Settles O9: the word presented is the oldest one pending, and it decodes to the instruction it encodes. -/
theorem presentedCommandRunsNext : Obligations.PresentedCommandRunsNext := by
  intro s i hi
  rw [State.withFetchWord, tableWord_toNat]
  exact step_command (presentCommand_pending (encode i) s) (decode_encode hi)

/-- Settles O28: every write writes both cells, and UPDATE's two writes hold values together. -/
theorem everyStepKeepsTheCellsAlike : Obligations.EveryStepKeepsTheCellsAlike := by
  intro s t hs h
  refine step_keeps (P := fun a b => a.isSome = b.isSome) rfl (fun d s _ => ?_) hs h
  obtain ⟨ha, hb⟩ := accumulate_isSome d s.accumulators
  exact ha.trans hb.symm

/-- Settles O29: from defined registers UPDATE reads a pair, so it writes one. -/
theorem everyStepKeepsDefinedRegisters : Obligations.EveryStepKeepsDefinedRegisters := by
  intro s t hs h
  refine step_keeps (P := fun a b => a.isSome = true ∧ b.isSome = true) ⟨rfl, rfl⟩ (fun d s hdef => ?_) hs h
  obtain ⟨x, hx⟩ := Option.isSome_iff_exists.mp hdef.1
  obtain ⟨y, hy⟩ := Option.isSome_iff_exists.mp hdef.2
  rw [accumulators_of_some hx hy]
  exact accumulate_isSome d (some (x, y))

/-- Settles O32: a step that changes the accumulators took one of their writers. -/
theorem onlyResetClearAndUpdateWrite : Obligations.OnlyResetClearAndUpdateWrite := by
  intro s t h hnot
  obtain hsame | ⟨⟨e, he, hw⟩, -⟩ := step_accumulators h
  · exact hsame
  · rw [hnot e he] at hw
    cases hw

/-- Settles O33: the read as one step, the packing as arithmetic, and two reads as two such steps. -/
theorem readGivesThePackedPair : Obligations.ReadGivesThePackedPair := by
  refine ⟨fun s rest x y hp ha hb => step_readResult hp ha hb, fun x y => packResult_toNat, ?_⟩
  intro s rest x y hp ha hb
  refine ⟨packResult (x, y), ?_⟩
  have first := step_readResult hp ha hb
  have second := step_readResult
    (s := { s with pending := .readResult :: rest, reads := s.reads ++ [packResult (x, y)] }) rfl ha hb
  simp [stepMany, first, second]

/-- Settles O8: the step takes the oldest interaction, and a word that decodes is run. -/
theorem stepRunsTheDecodedCommand : Obligations.StepRunsTheDecodedCommand := fun _ _ _ _ => step_command

/-- Settles O27, by evaluating the invariants at the two states. -/
theorem resetAndPowerUpMeetTheInvariants : Obligations.ResetAndPowerUpMeetTheInvariants := by
  unfold Obligations.ResetAndPowerUpMeetTheInvariants
  decide

/-- Settles O30, one event at a time: the zeros hold values, NOP answers its own state, and without a pair to read
UPDATE writes none and the port faults. -/
theorem undefinedCellTransitions : Obligations.UndefinedCellTransitions := by
  refine ⟨fun s => ⟨_, rfl, rfl, rfl⟩, fun s => ⟨_, exec_eq .clear s, rfl, rfl⟩,
    fun s ha hb => ⟨s, exec_eq .nop s, ha, hb⟩, fun s d h => ?_, fun s h => ?_⟩
  · refine ⟨_, exec_eq (.update d) s, ?_⟩
    simp [accumulators_eq_none.mpr h, accumulate]
  · exact interact_fault.mpr ⟨rfl, accumulators_eq_none.mpr h⟩

/-- Settles O34: reset writes the zeros, and the packed pair of zeros is zero. -/
theorem resetWritesZero : Obligations.ResetWritesZero := by
  have hread (s : State) : readPort { s with a := some 0x0000, b := some 0x0000 } = .ok 0x0000 :=
    readPort_eq_ok.mpr ⟨(0, 0), rfl, rfl⟩
  exact ⟨fun s rest hp => step_of_pending hp, hread, rfl, rfl, hread .reset⟩

end Sys2Proof.Machine
end

section
/-! SUPPORT. When a run is good and where it ends, said as one equation of records; that the pending list rides along
unread; and the two bytes of a packed result: facts the statements of 20_memory.md share. -/

namespace Sys2Proof.Machine

/-- A good run that ends in a state is the record that starts there with no mark (70_reset_and_hazards.md R94). -/
theorem good_and_state_iff {r : RunRecord} {t : State} : r.Good ∧ r.state = t ↔ r = .start t := by
  obtain ⟨s, f, x⟩ := r
  simp [RunRecord.start, and_comm]

/-- A recorded fault stays for the rest of the run (60_exceptions.md R77). -/
theorem run_of_faulted {r : RunRecord} {f : Fault} (h : r.fault = some f) (es : List Interaction) :
    (r.run es).fault = some f := by
  induction es generalizing r with
  | nil => exact h
  | cons e es ih => exact ih (apply_fault h e)

/-- A run from no mark ends without one exactly when its first interaction goes on and the rest of the run does so from
there: neither mark is ever taken back (60_exceptions.md R76, R77). -/
theorem run_cons_eq_start {s t : State} {e : Interaction} {es : List Interaction} :
    (RunRecord.start s).run (e :: es) = .start t ↔
      ∃ u, interact e s = .next u ∧ (RunRecord.start u).run es = .start t := by
  rw [run_cons]
  cases h : interact e s with
  | next u =>
    have happly : (RunRecord.start s).apply e = .start u := apply_next rfl h
    simp [happly]
  | fault f =>
    have hmark : ((RunRecord.start s).apply e).fault = some f := by simp [RunRecord.apply, RunRecord.start, h]
    have hrun := run_of_faulted hmark es
    refine iff_of_false (fun heq => ?_) (by simp)
    rw [heq] at hrun
    cases hrun
  | refused x =>
    have hmark : ((RunRecord.start s).apply e).refusal = some x := by simp [RunRecord.apply, RunRecord.start, h]
    refine iff_of_false (fun heq => ?_) (by simp)
    rw [run_of_refused hmark es] at heq
    rw [heq] at hmark
    cases hmark

/-- Steps that all go on: the first one does, and the others from where it leads. -/
theorem stepMany_succ_eq_next {k : Nat} {s t : State} :
    stepMany (k + 1) s = .next t ↔ ∃ u, step s = .next u ∧ stepMany k u = .next t := by
  rw [stepMany]
  cases step s <;> simp

/-- An interaction that goes on does the same whatever the host has pending, and leaves that pending. -/
theorem interact_withPending {e : Interaction} {s t : State} (h : interact e s = .next t) (p : List Interaction) :
    interact e { s with pending := p } = .next { t with pending := p } := by
  obtain ⟨cmd, rfl, hd, rfl⟩ | ⟨cmd, rfl, hd, rfl⟩ | ⟨cmd, d, rfl, hd, rfl⟩ | ⟨rfl, rfl⟩ | ⟨v, rfl, hv, rfl⟩ :=
    interact_next h
  · exact interact_command hd _
  · exact interact_command hd _
  · exact interact_command hd _
  · rfl
  · have hport : readPort { s with pending := p } = .ok v := hv
    simp [interact, acceptRead, hport]

/-- Stepping through a pending list is the run of that list from the same registers and reads (20_memory.md R36). -/
theorem stepMany_pending_iff_run (es : List Interaction) (s t : State) :
    stepMany es.length { s with pending := es } = .next t ↔
      (RunRecord.start { s with pending := [] }).run es = .start t := by
  induction es generalizing s with
  | nil => simp [stepMany, RunRecord.start]
  | cons e es ih =>
    rw [List.length_cons, stepMany_succ_eq_next, step_of_pending rfl, run_cons_eq_start]
    constructor
    · rintro ⟨u, hu, hsteps⟩
      obtain rfl : u.pending = es := interact_pending hu
      exact ⟨_, interact_withPending hu [], (ih u).mp hsteps⟩
    · rintro ⟨u, hu, hrun⟩
      have hnone : { u with pending := [] } = u := by rw [← show u.pending = [] from interact_pending hu]
      exact ⟨_, interact_withPending hu es, (ih u).mpr (hnone ▸ hrun)⟩

/-- The high byte of a result as a number (20_memory.md R32): the field the decoder calls `OP`. -/
theorem resultHigh_toNat (v : Word) : (resultHigh v).toNat = v.toNat / 256 := opField_toNat v

/-- The low byte of a result as a number (20_memory.md R32): the field the decoder calls `D`. -/
theorem resultLow_toNat (v : Word) : (resultLow v).toNat = v.toNat % 256 := dataField_toNat v

/-- The high byte of the packed pair is `b` (20_memory.md R32). -/
theorem resultHigh_packResult {x y : Word} (hx : x.toNat ≤ 254) (hy : y.toNat ≤ 254) :
    resultHigh (packResult (x, y)) = BitVec.ofNat 8 y.toNat := by
  apply BitVec.eq_of_toNat_eq
  rw [resultHigh_toNat, packResult_toNat hx hy, BitVec.toNat_ofNat]
  omega

/-- The low byte of the packed pair is `a` (20_memory.md R32). -/
theorem resultLow_packResult {x y : Word} (hx : x.toNat ≤ 254) (hy : y.toNat ≤ 254) :
    resultLow (packResult (x, y)) = BitVec.ofNat 8 x.toNat := by
  apply BitVec.eq_of_toNat_eq
  rw [resultLow_toNat, packResult_toNat hx hy, BitVec.toNat_ofNat]
  omega

/-- The byte at the base address is the lower-address byte of the port's value (20_memory.md R32, R38). -/
theorem platformReadByte_base {s : State} {v : Word} (p : Config.Platform) (h : readPort s = .ok v) :
    platformReadByte p p.baseAddress s = some (.ok (resultByteAt p.resultByteOrder false v)) := by
  simp [platformReadByte, h, Except.map]

/-- The byte after the base address is the higher-address byte of the port's value (20_memory.md R32, R38). -/
theorem platformReadByte_base_succ {s : State} {v : Word} (p : Config.Platform) (h : readPort s = .ok v) :
    platformReadByte p (p.baseAddress + 1) s = some (.ok (resultByteAt p.resultByteOrder true v)) := by
  simp [platformReadByte, h, Except.map]

/-- No other address holds a byte of `result` (log 11). -/
theorem platformReadByte_elsewhere {p : Config.Platform} {address : Nat} (h0 : address ≠ p.baseAddress)
    (h1 : address ≠ p.baseAddress + 1) (s : State) : platformReadByte p address s = none := by
  simp [platformReadByte, h0, h1]

end Sys2Proof.Machine
end

section
/-! The statements of 20_memory.md, settled. -/

namespace Sys2Proof.Machine

/-- Settles O38: both sides are one equation of records, proved along the pending list. -/
theorem stepsAgreeWithTheRun : Obligations.StepsAgreeWithTheRun := fun s t =>
  (stepMany_pending_iff_run s.pending s t).trans good_and_state_iff.symm

/-- Settles O50, by running the two sequences. -/
theorem byteOrderMatters : Obligations.ByteOrderMatters := by
  unfold Obligations.ByteOrderMatters
  decide

/-- Settles O51: CLEAR writes zeros over zeros; UPDATE 1 takes `a` from 0 to 1 and then to 2. -/
theorem clearIsIdempotentUpdateIsNot : Obligations.ClearIsIdempotentUpdateIsNot := by
  refine ⟨fun s t h => ?_, 1, .reset, { State.reset with a := some 1, b := some 1 }, rfl, fun h => ?_⟩
  · cases (exec_eq .clear s).symm.trans h
    rfl
  · have ha := congrArg State.a (Host.Outcome.next.inj ((exec_eq (.update 1) _).symm.trans h))
    exact absurd ha (by decide)

/-- Settles O55: the port gives the packed pair, and each byte order says which of its two bytes comes first. -/
theorem platformByteView : Obligations.PlatformByteView := by
  rintro p s x y ⟨hx, hy⟩ ha hb
  replace hx : x.toNat ≤ 254 := by simpa [ha, Cell.InRange] using hx
  replace hy : y.toNat ≤ 254 := by simpa [hb, Cell.InRange] using hy
  have hport : readPort s = .ok (packResult (x, y)) := readPort_eq_ok.mpr ⟨(x, y), accumulators_of_some ha hb, rfl⟩
  have hbase := platformReadByte_base p hport
  have hnext := platformReadByte_base_succ p hport
  have hhigh := resultHigh_packResult hx hy
  have hlow := resultLow_packResult hx hy
  refine ⟨fun horder => ?_, fun horder => ?_, fun _ h0 h1 => platformReadByte_elsewhere h0 h1 s⟩
  · simp [hbase, hnext, horder, resultByteAt, hhigh, hlow]
  · simp [hbase, hnext, horder, resultByteAt, hhigh, hlow]

end Sys2Proof.Machine
end

section
/-! SUPPORT. When the decoder gives each of its answers, by the number of the word, and what each row of the opcode map
selects: facts the statements of 30_encoding.md share. -/

namespace Sys2Proof.Machine

/-- The decoder reads NOP from the word 0 alone (30_encoding.md R50). -/
theorem decode_eq_nop_iff {cmd : Word} : decode cmd = .command .nop ↔ cmd.toNat = 0 := by
  rcases decode_cases cmd with ⟨hn, hd⟩ | ⟨hn, hd⟩ | ⟨hn, hd⟩ | ⟨hn, -, -, hd⟩ <;> simp [hd] <;> omega

/-- The decoder reads CLEAR from the word 256 alone (R50). -/
theorem decode_eq_clear_iff {cmd : Word} : decode cmd = .command .clear ↔ cmd.toNat = 256 := by
  rcases decode_cases cmd with ⟨hn, hd⟩ | ⟨hn, hd⟩ | ⟨hn, hd⟩ | ⟨-, hn, -, hd⟩ <;> simp [hd] <;> omega

/-- The decoder reads UPDATE from the words with opcode 2, the operand being the data field as a number (R47, R50). -/
theorem decode_eq_update_iff {cmd d : Word} :
    decode cmd = .command (.update d) ↔ cmd.toNat / 256 = 2 ∧ d.toNat = cmd.toNat % 256 := by
  have hdata : zext16 (dataField cmd) = d ↔ d.toNat = cmd.toNat % 256 := by
    rw [← BitVec.toNat_inj, zext16_toNat, dataField_toNat, eq_comm]
  rcases decode_cases cmd with ⟨hn, hd⟩ | ⟨hn, hd⟩ | ⟨hn, hd⟩ | ⟨-, -, hn, hd⟩
  · simp [hd, hn]
  · simp [hd, hn]
  · simp [hd, hn, hdata]
  · simp [hd, hn]

/-- The decoder reads some UPDATE exactly from the words with opcode 2 (R50). -/
theorem decode_eq_some_update_iff {cmd : Word} :
    (∃ d, decode cmd = .command (.update d)) ↔ cmd.toNat / 256 = 2 := by
  refine ⟨fun ⟨d, hd⟩ => (decode_eq_update_iff.mp hd).1, fun h => ⟨zext16 (dataField cmd), ?_⟩⟩
  exact decode_eq_update_iff.mpr ⟨h, by rw [zext16_toNat, dataField_toNat]⟩

/-- The class of a reserved word is read off its opcode field as a number (R49). -/
theorem reservedClass_eq (cmd : Word) :
    reservedClass cmd = if cmd.toNat / 256 ≤ 1 then .nonzeroData else .reservedOpcode := by
  have hop : opField cmd = 0x00 ∨ opField cmd = 0x01 ↔ cmd.toNat / 256 ≤ 1 := by
    simp only [← BitVec.toNat_inj, opField_toNat]
    exact Nat.le_one_iff_eq_zero_or_eq_one.symm
  simp only [reservedClass, hop]

/-- The decoder answers RESERVED exactly on the words that no row selects, under the class of R49. -/
theorem decode_eq_reserved_iff {cmd : Word} {c : ReservedClass} :
    decode cmd = .reserved c cmd ↔
      (cmd.toNat ≠ 0 ∧ cmd.toNat ≠ 256 ∧ cmd.toNat / 256 ≠ 2) ∧ reservedClass cmd = c := by
  rcases decode_cases cmd with ⟨hn, hd⟩ | ⟨hn, hd⟩ | ⟨hn, hd⟩ | ⟨h0, h1, h2, hd⟩
  · simp [hd, hn]
  · simp [hd, hn]
  · simp [hd, hn]
  · simp [hd, h0, h1, h2]

/-- The first class: NOP's or CLEAR's opcode with data that is not 0 (R49). -/
theorem decode_eq_nonzeroData_iff {cmd : Word} :
    decode cmd = .reserved .nonzeroData cmd ↔ cmd.toNat / 256 ≤ 1 ∧ cmd.toNat % 256 ≠ 0 := by
  rw [decode_eq_reserved_iff, reservedClass_eq]
  split <;> simp <;> omega

/-- The second class: an opcode of 3 or more, with any data (R49). -/
theorem decode_eq_reservedOpcode_iff {cmd : Word} :
    decode cmd = .reserved .reservedOpcode cmd ↔ 3 ≤ cmd.toNat / 256 := by
  rw [decode_eq_reserved_iff, reservedClass_eq]
  split <;> simp <;> omega

/-- A word is reserved exactly when it is in one of the two classes (R49). -/
theorem isReserved_iff_classes {cmd : Word} :
    isReserved cmd = true ↔ (cmd.toNat / 256 ≤ 1 ∧ cmd.toNat % 256 ≠ 0) ∨ 3 ≤ cmd.toNat / 256 := by
  rw [isReserved_iff, ← decode_eq_nonzeroData_iff, ← decode_eq_reservedOpcode_iff]
  constructor
  · rintro ⟨c, hc⟩
    cases c
    · exact .inr hc
    · exact .inl hc
  · rintro (h | h)
    · exact ⟨_, h⟩
    · exact ⟨_, h⟩

/-- A word decodes to an instruction exactly when the instruction is well-formed and the word is its encoding (R51). -/
theorem decode_eq_command_iff {cmd : Word} {i : Instr} :
    decode cmd = .command i ↔ WellFormed i ∧ encode i = cmd := by
  refine ⟨fun h => ⟨decode_wellFormed h, ?_⟩, fun ⟨hi, he⟩ => he ▸ decode_encode hi⟩
  apply BitVec.eq_of_toNat_eq
  cases i with
  | nop => exact (decode_eq_nop_iff.mp h).symm
  | clear => exact (decode_eq_clear_iff.mp h).symm
  | update d =>
    obtain ⟨hop, hdata⟩ := decode_eq_update_iff.mp h
    rw [encode_update_toNat (by omega)]
    omega

/-- A word under the mask `0xFF00` is its opcode field alone (R48). -/
theorem and_FF00_toNat (cmd : Word) : (cmd &&& 0xFF00).toNat = cmd.toNat / 256 * 256 := by
  have hlow : (cmd.toNat &&& 0xFF00) % 2 ^ 8 = 0 := by
    rw [Nat.and_mod_two_pow]
    exact Nat.and_zero _
  have hhigh : (cmd.toNat &&& 0xFF00) / 2 ^ 8 = cmd.toNat / 2 ^ 8 % 2 ^ 8 := by
    rw [Nat.and_div_two_pow, ← Nat.and_two_pow_sub_one_eq_mod]
  rw [BitVec.toNat_and]
  change cmd.toNat &&& 0xFF00 = _
  omega

/-- The mask `0xFFFF` takes the whole word (R48). -/
theorem and_FFFF (cmd : Word) : cmd &&& 0xFFFF = cmd := BitVec.and_allOnes

/-- NOP's row selects exactly the word the decoder reads NOP from (R48). -/
theorem decode_eq_nop_iff_selects {cmd : Word} : decode cmd = .command .nop ↔ Instr.nop.row.Selects cmd := by
  rw [decode_eq_nop_iff, OpcodeRow.Selects, Instr.row, and_FFFF, ← BitVec.toNat_inj]
  rfl

/-- CLEAR's row selects exactly the word the decoder reads CLEAR from (R48). -/
theorem decode_eq_clear_iff_selects {cmd : Word} : decode cmd = .command .clear ↔ Instr.clear.row.Selects cmd := by
  rw [decode_eq_clear_iff, OpcodeRow.Selects, Instr.row, and_FFFF, ← BitVec.toNat_inj]
  rfl

/-- UPDATE's row selects exactly the words the decoder reads some UPDATE from (R48). -/
theorem decode_eq_some_update_iff_selects {cmd d : Word} :
    (∃ d, decode cmd = .command (.update d)) ↔ (Instr.update d).row.Selects cmd := by
  rw [decode_eq_some_update_iff, OpcodeRow.Selects, Instr.row, ← BitVec.toNat_inj, and_FF00_toNat]
  change _ ↔ _ = 512
  omega

/-- A word that a row selects decodes to a command of that row (R48). -/
theorem decode_of_selects {cmd : Word} {i : Instr} (h : i.row.Selects cmd) :
    ∃ k, decode cmd = .command k ∧ k.row = i.row := by
  cases i with
  | nop => exact ⟨.nop, decode_eq_nop_iff_selects.mpr h, rfl⟩
  | clear => exact ⟨.clear, decode_eq_clear_iff_selects.mpr h, rfl⟩
  | update d =>
    obtain ⟨d', hd⟩ := decode_eq_some_update_iff_selects.mpr h
    exact ⟨.update d', hd, rfl⟩

/-- How many words have a property of their number: the size of a set of numbers. -/
theorem countP_words_eq_card {P : Word → Bool} {S : Finset Nat}
    (h : ∀ n, n ∈ S ↔ n < 65536 ∧ P (BitVec.ofNat 16 n) = true) :
    (List.range 65536).countP (fun n => P (BitVec.ofNat 16 n)) = S.card := by
  have hS : S = {n ∈ Finset.range 65536 | P (BitVec.ofNat 16 n) = true} := by
    ext n
    rw [h, Finset.mem_filter, Finset.mem_range]
  rw [hS, ← Nat.count_eq_card_filter_range, Nat.count]
  simp

/-- The numbers of the words that are reserved by their data: `0x0001` to `0x00FF` and `0x0101` to `0x01FF` (R49). -/
def nonzeroDataWords : Finset Nat := Finset.Ico 0x0001 0x0100 ∪ Finset.Ico 0x0101 0x0200

/-- The numbers of the words that are reserved by their opcode: `0x0300` to `0xFFFF` (R49). -/
def reservedOpcodeWords : Finset Nat := Finset.Ico 0x0300 0x10000

/-- The two intervals are the first class, by the fields of the word (R49). -/
theorem mem_nonzeroDataWords {n : Nat} : n ∈ nonzeroDataWords ↔ n / 256 ≤ 1 ∧ n % 256 ≠ 0 := by
  simp only [nonzeroDataWords, Finset.mem_union, Finset.mem_Ico]
  omega

/-- The interval is the second class, by the opcode field of the word (R49). -/
theorem mem_reservedOpcodeWords {n : Nat} : n ∈ reservedOpcodeWords ↔ n < 65536 ∧ 3 ≤ n / 256 := by
  simp only [reservedOpcodeWords, Finset.mem_Ico]
  omega

/-- Twice 255 words are reserved by their data (R49). -/
theorem card_nonzeroDataWords : nonzeroDataWords.card = 510 := by
  rw [nonzeroDataWords, Finset.card_union_of_disjoint, Nat.card_Ico, Nat.card_Ico]
  exact Finset.disjoint_left.mpr fun n => by simp only [Finset.mem_Ico]; omega

/-- 253 opcodes of 256 words each are reserved (R49). -/
theorem card_reservedOpcodeWords : reservedOpcodeWords.card = 64768 := Nat.card_Ico _ _

/-- No word is in both classes (R49). -/
theorem disjoint_reserved_classes : Disjoint nonzeroDataWords reservedOpcodeWords :=
  Finset.disjoint_left.mpr fun n => by rw [mem_nonzeroDataWords, mem_reservedOpcodeWords]; omega

end Sys2Proof.Machine
end

section
/-! The statements of 30_encoding.md about words, settled. -/

namespace Sys2Proof.Machine

/-- Settles O5: a word decodes to an instruction exactly when it is the encoding of that well-formed instruction. -/
theorem decodeAndEncodeAgree : Obligations.DecodeAndEncodeAgree :=
  ⟨rfl, rfl, fun _ _ => rfl, fun _ => decode_encode, fun _ _ h => (decode_eq_command_iff.mp h).2⟩

/-- Settles O1: each row selects what the decoder reads as its command, and the decoder answers once. -/
theorem opcodeMapSelectsByMatchAndMask : Obligations.OpcodeMapSelectsByMatchAndMask := by
  refine fun cmd => ⟨decode_eq_nop_iff_selects, decode_eq_clear_iff_selects,
    decode_eq_some_update_iff_selects (d := 0), fun i j hi hj => ?_⟩
  obtain ⟨k, hk, hki⟩ := decode_of_selects hi
  obtain ⟨l, hl, hlj⟩ := decode_of_selects hj
  cases hk.symm.trans hl
  exact hki.symm.trans hlj

/-- Settles O2, one answer of the decoder at a time. -/
theorem decoderFollowsThePseudocode : Obligations.DecoderFollowsThePseudocode := by
  refine fun cmd => ⟨fun h => decode_eq_nop_iff.mpr (by omega), fun h => decode_eq_clear_iff.mpr (by omega),
    fun h => decode_eq_update_iff.mpr ⟨h, ?_⟩, fun h0 h1 h2 => ?_⟩
  · rw [BitVec.toNat_ofNat]
    omega
  · exact ⟨reservedClass cmd, decode_eq_reserved_iff.mpr ⟨by omega, rfl⟩⟩

/-- Settles O3: each class by its fields. -/
theorem reservedWordsFallInTwoClasses : Obligations.ReservedWordsFallInTwoClasses :=
  fun _ => ⟨decode_eq_nonzeroData_iff, decode_eq_reservedOpcode_iff⟩

/-- Settles O4: the words of a class, as numbers, are one or two intervals. -/
theorem reservedWordCounts : Obligations.ReservedWordCounts := by
  refine ⟨?_, ?_, ?_⟩
  · rw [countP_words_eq_card (S := nonzeroDataWords ∪ reservedOpcodeWords),
      Finset.card_union_of_disjoint disjoint_reserved_classes, card_nonzeroDataWords, card_reservedOpcodeWords]
    intro n
    rw [Finset.mem_union, mem_nonzeroDataWords, mem_reservedOpcodeWords, isReserved_iff_classes, BitVec.toNat_ofNat]
    omega
  · rw [countP_words_eq_card (P := fun w => decide (decode w = .reserved .reservedOpcode w)) (S := reservedOpcodeWords),
      card_reservedOpcodeWords]
    intro n
    rw [mem_reservedOpcodeWords, decide_eq_true_iff, decode_eq_reservedOpcode_iff, BitVec.toNat_ofNat]
    omega
  · rw [countP_words_eq_card (P := fun w => decide (decode w = .reserved .nonzeroData w)) (S := nonzeroDataWords),
      card_nonzeroDataWords]
    intro n
    rw [mem_nonzeroDataWords, decide_eq_true_iff, decode_eq_nonzeroData_iff, BitVec.toNat_ofNat]
    omega

/-- Settles O6: the operand is the data field, and that is a remainder mod 256. -/
theorem updateOperandIsZeroExtendedData : Obligations.UpdateOperandIsZeroExtendedData := by
  intro cmd d h
  obtain ⟨-, hd⟩ := decode_eq_update_iff.mp h
  omega

/-- Settles O7, by decoding the eight words. -/
theorem writtenOutWordsDecode : Obligations.WrittenOutWordsDecode := by
  unfold Obligations.WrittenOutWordsDecode
  decide

end Sys2Proof.Machine
end

section
/-! SUPPORT. The assembler, piece by piece: the tokens of a line, its numbers and bytes, what each mnemonic reads, and
what a line emits (30_encoding.md R53 to R56). -/

namespace Sys2Proof.Machine

/-- A character that neither ends a word nor opens a quotation or a comment. -/
def isPlain (c : Char) : Bool := c ≠ ';' ∧ isBlank c = false ∧ c ≠ ',' ∧ c ≠ singleQuote ∧ c ≠ doubleQuote

/-- A plain character opens a word. -/
theorem lex_between_plain {c : Char} (hc : isPlain c = true) (cs : List Char) :
    lex .between (c :: cs) = lex (.inWord [c]) cs := by
  obtain ⟨hs, hb, hcomma, hq, hd⟩ := of_decide_eq_true hc
  simp [lex, hs, hb, hcomma, hq, hd]

/-- A plain character inside a word is collected. -/
theorem lex_inWord_plain {c : Char} (hc : isPlain c = true) (rev cs : List Char) :
    lex (.inWord rev) (c :: cs) = lex (.inWord (c :: rev)) cs := by
  obtain ⟨hs, hb, hcomma, hq, hd⟩ := of_decide_eq_true hc
  simp [lex, hs, hb, hcomma, hq, hd]

/-- Plain characters inside a word are collected in order. -/
theorem lex_inWord_append {w : List Char} (hw : w.all isPlain = true) (rev cs : List Char) :
    lex (.inWord rev) (w ++ cs) = lex (.inWord (w.reverse ++ rev)) cs := by
  induction w generalizing rev with
  | nil => rfl
  | cons c w ih =>
    obtain ⟨hc, hw⟩ := by simpa only [List.all_cons, Bool.and_eq_true] using hw
    rw [List.cons_append, lex_inWord_plain hc, ih hw]
    simp

/-- A word of plain characters is collected whole. -/
theorem lex_between_word {w : List Char} (hne : w ≠ []) (hw : w.all isPlain = true) (cs : List Char) :
    lex .between (w ++ cs) = lex (.inWord w.reverse) cs := by
  obtain ⟨c, w, rfl⟩ := List.exists_cons_of_ne_nil hne
  obtain ⟨hc, hw⟩ := by simpa only [List.all_cons, Bool.and_eq_true] using hw
  rw [List.cons_append, lex_between_plain hc, lex_inWord_append hw, List.reverse_cons]

/-- A word that ends the line is its last token. -/
theorem lex_word {w : List Char} (hne : w ≠ []) (hw : w.all isPlain = true) : lex .between w = some [.word w] := by
  have h := lex_between_word hne hw []
  rw [List.append_nil] at h
  rw [h, lex, List.reverse_reverse]

/-- A word before a space is a token, and the scan goes on after the space. -/
theorem lex_word_space {w : List Char} (hne : w ≠ []) (hw : w.all isPlain = true) (cs : List Char) :
    lex .between (w ++ ' ' :: cs) = (lex .between cs).map (.word w :: ·) := by
  have hblank : isBlank ' ' = true := by decide
  rw [lex_between_word hne hw]
  simp [lex, hblank]

/-- A string runs to the next double quotation mark. -/
theorem lex_inString {cs : List Char} (hcs : doubleQuote ∉ cs) (rev rest : List Char) :
    lex (.inString rev) (cs ++ doubleQuote :: rest) = (lex .between rest).map (.str (rev.reverse ++ cs) :: ·) := by
  induction cs generalizing rev with
  | nil => simp [lex]
  | cons c cs ih =>
    obtain ⟨hc, hcs⟩ := List.ne_and_not_mem_of_not_mem_cons hcs
    simp [lex, Ne.symm hc, ih hcs]

/-- A quoted string is a token. -/
theorem lex_quoted {cs : List Char} (hcs : doubleQuote ∉ cs) :
    lex .between (doubleQuote :: (cs ++ [doubleQuote])) = some [.str cs] := by
  have hopen : lex .between (doubleQuote :: (cs ++ [doubleQuote])) = lex (.inString []) (cs ++ [doubleQuote]) := by
    have hs : doubleQuote ≠ ';' := by decide
    have hb : isBlank doubleQuote = false := by decide
    have hcomma : doubleQuote ≠ ',' := by decide
    have hq : doubleQuote ≠ singleQuote := by decide
    simp [lex, hs, hb, hcomma, hq]
  rw [hopen, lex_inString hcs]
  rfl

/-- A hexadecimal digit has its value back. -/
theorem digitValue_hexDigit {n : Nat} (h : n < 16) : digitValue (hexDigit n) = some n := by
  revert n
  decide

/-- A hexadecimal digit is no blank, comma, quotation mark or semicolon. -/
theorem isPlain_hexDigit {n : Nat} (h : n < 16) : isPlain (hexDigit n) = true := by
  revert n
  decide

/-- Two hexadecimal digits after `0x` have the number's value back. -/
theorem numberValue_hexDigits {n : Nat} (h : n ≤ 255) : numberValue ('0' :: 'x' :: hexDigits 2 n) = some n := by
  have hhigh : digitValue (hexDigit (n / 16 % 16)) = some (n / 16 % 16) := digitValue_hexDigit (Nat.mod_lt _ (by decide))
  have hlow : digitValue (hexDigit (n % 16)) = some (n % 16) := digitValue_hexDigit (Nat.mod_lt _ (by decide))
  have hmod (m : Nat) : m % 16 < 16 := Nat.mod_lt m (by decide)
  have hvalue : n / 16 % 16 * 16 + n % 16 = n := by omega
  simp [numberValue, hexDigits, digitsValue, hhigh, hlow, hmod, hvalue]

/-- The two digits of UPDATE's listing, written out (R56). -/
theorem hexDigits_two {n : Nat} (h : n ≤ 255) : hexDigits 2 n = [hexDigit (n / 16), hexDigit (n % 16)] := by
  have hhigh : n / 16 % 16 = n / 16 := by omega
  simp [hexDigits, hhigh]

/-- The four digits of a reserved word's listing, written out (R56). -/
theorem hexDigits_four {n : Nat} (h : n < 65536) :
    hexDigits 4 n =
      [hexDigit (n / 4096), hexDigit (n / 256 % 16), hexDigit (n / 16 % 16), hexDigit (n % 16)] := by
  have hhigh : n / 4096 % 16 = n / 4096 := by omega
  simp [hexDigits, Nat.div_div_eq_div_mul, hhigh]

/-- A number of at most 255 is a byte (R53). -/
theorem byteOperand_word {cs : List Char} {v : Nat} (h : numberValue cs = some v) (hv : v ≤ 255) :
    byteOperand (.word cs) = .ok (BitVec.ofNat 8 v) := by
  simp [byteOperand, h, hv]

/-- A number above 255 is none (R54). -/
theorem byteOperand_outOfRange {cs : List Char} {v : Nat} (h : numberValue cs = some v) (hv : 255 < v) :
    byteOperand (.word cs) = .error .operandOutOfRange := by
  simp [byteOperand, h, hv]

/-- An ASCII character's byte is its code (R53). -/
theorem asciiByte_ascii {c : Char} (h : c.toNat < 128) : asciiByte c = .ok (BitVec.ofNat 8 c.toNat) := by
  simp [asciiByte, h]

/-- A character outside ASCII has no byte (R55). -/
theorem asciiByte_nonAscii {c : Char} (h : 128 ≤ c.toNat) : asciiByte c = .error .nonAscii := by
  simp [asciiByte, h]

/-- The bytes of an ASCII string are its characters' codes, left to right (R55). -/
theorem asciiBytes_ascii {cs : List Char} (h : ∀ c ∈ cs, c.toNat < 128) :
    asciiBytes cs = .ok (cs.map fun c => BitVec.ofNat 8 c.toNat) := by
  induction cs with
  | nil => rfl
  | cons c cs ih =>
    obtain ⟨hc, hcs⟩ := List.forall_mem_cons.mp h
    rw [asciiBytes, asciiByte_ascii hc, ih hcs]
    rfl

/-- A string with a character outside ASCII is rejected (R55). -/
theorem asciiBytes_nonAscii {cs : List Char} (h : ∃ c ∈ cs, 128 ≤ c.toNat) : asciiBytes cs = .error .nonAscii := by
  induction cs with
  | nil => simp at h
  | cons c cs ih =>
    by_cases hc : c.toNat < 128
    · have hcs : ∃ c ∈ cs, 128 ≤ c.toNat := by
        obtain ⟨x, hx, hlarge⟩ := h
        obtain rfl | hx := List.mem_cons.mp hx
        · omega
        · exact ⟨x, hx, hlarge⟩
      rw [asciiBytes, asciiByte_ascii hc, ih hcs]
      rfl
    · rw [asciiBytes, asciiByte_nonAscii (Nat.le_of_not_lt hc)]
      rfl

/-- Bytes separated by commas are read in order (R55). -/
theorem byteList_intersperse {ops : List (Token × Byte)} (hne : ops ≠ [])
    (h : ∀ p ∈ ops, byteOperand p.1 = .ok p.2) :
    byteList ((ops.map Prod.fst).intersperse .comma) = .ok (ops.map Prod.snd) := by
  induction ops with
  | nil => exact absurd rfl hne
  | cons p ops ih =>
    obtain ⟨hp, hops⟩ := List.forall_mem_cons.mp h
    cases ops with
    | nil =>
      change byteList [p.1] = _
      rw [byteList, hp]
      rfl
    | cons q ops =>
      have hrest := ih (List.cons_ne_nil _ _) hops
      change byteList (p.1 :: .comma :: ((q :: ops).map Prod.fst).intersperse .comma) = _
      rw [byteList, hp, hrest]
      rfl

/-! What each mnemonic reads (R53 to R55). -/

theorem parseLine_update (ts : List Token) : parseLine (.word "update".toList :: ts) = oneByte ts := rfl

theorem parseLine_updateBytes (ts : List Token) :
    parseLine (.word "update.bytes".toList :: ts) = (byteList ts).map .updateBytes := rfl

theorem parseLine_updateAscii (ts : List Token) :
    parseLine (.word "update.ascii".toList :: ts) = oneString .updateAscii ts := rfl

theorem parseLine_checksum_cons (t : Token) (ts : List Token) :
    parseLine (.word "checksum".toList :: t :: ts) = (byteList (t :: ts)).map .checksum := rfl

theorem parseLine_checksumAscii (ts : List Token) :
    parseLine (.word "checksum.ascii".toList :: ts) = oneString .checksumAscii ts := rfl

/-- `checksum` reads whatever byte list there is; its own empty list is no such list (R55). -/
theorem parseLine_checksum {ts : List Token} {ds : List Byte} (h : byteList ts = .ok ds) :
    parseLine (.word "checksum".toList :: ts) = .ok (.checksum ds) := by
  cases ts with
  | nil => cases h
  | cons t ts =>
    rw [parseLine_checksum_cons, h]
    rfl

/-- The `.ascii` forms read an ASCII string as its characters' codes (R55). -/
theorem oneString_ascii (f : List Byte → AsmLine) {cs : List Char} (h : ∀ c ∈ cs, c.toNat < 128) :
    oneString f [.str cs] = .ok (f (cs.map fun c => BitVec.ofNat 8 c.toNat)) := by
  rw [oneString, asciiBytes_ascii h]
  rfl

/-- The `.ascii` forms reject any other string (R55). -/
theorem oneString_nonAscii (f : List Byte → AsmLine) {cs : List Char} (h : ∃ c ∈ cs, 128 ≤ c.toNat) :
    oneString f [.str cs] = .error .nonAscii := by
  rw [oneString, asciiBytes_nonAscii h]
  rfl

/-- Any other mnemonic is unknown (R54). -/
theorem parseLine_unknown {m : List Char}
    (h : m ∉ ["nop".toList, "clear".toList, "reset".toList, "update".toList, "update.bytes".toList,
      "update.ascii".toList, "checksum".toList, "checksum.ascii".toList]) (ts : List Token) :
    parseLine (.word m :: ts) = .error .unknownMnemonic := by
  simp only [List.mem_cons, List.not_mem_nil, or_false, not_or] at h
  obtain ⟨h1, h2, h3, h4, h5, h6, h7, h8⟩ := h
  simp only [parseLine, h1, h2, h3, h4, h5, h6, h7, h8, if_false]

/-- A line of tokens that parse is assembled to what the parsed line expands to. -/
theorem assembleLine_of_lex {text : List Char} {ts : List Token} (h : lex .between text = some ts) :
    assembleLine text = (parseLine ts).map AsmLine.expand := by
  simp [assembleLine, h]

/-- A mnemonic before a quoted string is assembled from those two tokens. -/
theorem assembleLine_quoted {m cs : List Char} (hne : m ≠ []) (hm : m.all isPlain = true) (hcs : doubleQuote ∉ cs) :
    assembleLine (m ++ ' ' :: doubleQuote :: (cs ++ [doubleQuote])) =
      (parseLine [.word m, .str cs]).map AsmLine.expand := by
  apply assembleLine_of_lex
  rw [lex_word_space hne hm, lex_quoted hcs]
  rfl

/-- A line emits what some line of assembly expands to, or nothing (R54). -/
theorem exists_expand_of_mem_emittedLine {text : List Char} {e : Interaction} (h : e ∈ emittedLine text) :
    ∃ l : AsmLine, e ∈ l.expand := by
  unfold emittedLine at h
  split at h
  · rename_i es hes
    unfold assembleLine at hes
    split at hes
    · cases hes
    · rename_i ts _
      cases hl : parseLine ts with
      | error f => rw [hl] at hes; cases hes
      | ok l =>
        rw [hl] at hes
        cases hes
        exact ⟨l, h⟩
  · cases h

/-- A byte, zero-extended, is an operand of UPDATE (R47). -/
theorem wellFormed_update_zext16 (d : Byte) : WellFormed (.update (zext16 d)) := by
  rw [wellFormed_update, zext16_toNat]
  exact Nat.le_of_lt_succ d.isLt

/-- The decoder reads an UPDATE of the byte from its word (R51). -/
theorem decode_encode_zext16 (d : Byte) : decode (encode (.update (zext16 d))) = .command (.update (zext16 d)) :=
  decode_encode (wellFormed_update_zext16 d)

/-- Every word among the UPDATEs is the encoding of an admitted command (R51, R55). -/
theorem encoded_of_mem_updateCommands {ds : List Byte} {cmd : Word} (h : .command cmd ∈ updateCommands ds) :
    ∃ i, WellFormed i ∧ encode i = cmd := by
  obtain ⟨d, -, hd⟩ := List.mem_map.mp h
  exact ⟨_, wellFormed_update_zext16 d, Interaction.command.inj hd⟩

/-- Every word of a checksum's sequence is the encoding of an admitted command (R51, R55). -/
theorem encoded_of_mem_checksumCommands {ds : List Byte} {cmd : Word} (h : .command cmd ∈ checksumCommands ds) :
    ∃ i, WellFormed i ∧ encode i = cmd := by
  obtain hclear | h := List.mem_cons.mp h
  · exact ⟨.clear, rfl, (Interaction.command.inj hclear).symm⟩
  · exact encoded_of_mem_updateCommands h

/-- Every word a line expands to is the encoding of an admitted command (R51, R55). -/
theorem encoded_of_mem_expand {l : AsmLine} {cmd : Word} (h : .command cmd ∈ l.expand) :
    ∃ i, WellFormed i ∧ encode i = cmd := by
  cases l with
  | blank => cases h
  | reset => cases List.mem_singleton.mp h
  | nop => exact ⟨.nop, rfl, (Interaction.command.inj (List.mem_singleton.mp h)).symm⟩
  | clear => exact ⟨.clear, rfl, (Interaction.command.inj (List.mem_singleton.mp h)).symm⟩
  | update d => exact ⟨_, wellFormed_update_zext16 d, (Interaction.command.inj (List.mem_singleton.mp h)).symm⟩
  | updateBytes ds => exact encoded_of_mem_updateCommands h
  | updateAscii ds => exact encoded_of_mem_updateCommands h
  | checksum ds => exact encoded_of_mem_checksumCommands h
  | checksumAscii ds => exact encoded_of_mem_checksumCommands h

/-- The UPDATE word of an ASCII code (R51, R55). -/
theorem encode_update_ascii {n : Nat} (h : n < 128) :
    encode (.update (zext16 (BitVec.ofNat 8 n))) = 0x0200 ||| BitVec.ofNat 16 n := by
  have hd : zext16 (BitVec.ofNat 8 n) = BitVec.ofNat 16 n := by
    apply BitVec.eq_of_toNat_eq
    rw [zext16_toNat, BitVec.toNat_ofNat, BitVec.toNat_ofNat]
    omega
  rw [encode, hd]

/-- The UPDATEs of an ASCII string's codes, as words (R51, R55). -/
theorem updateCommands_ascii {cs : List Char} (h : ∀ c ∈ cs, c.toNat < 128) :
    updateCommands (cs.map fun c => BitVec.ofNat 8 c.toNat) =
      cs.map fun c => .command (0x0200 ||| BitVec.ofNat 16 c.toNat) := by
  rw [updateCommands, List.map_map]
  exact List.map_congr_left fun c hc => congrArg Interaction.command (encode_update_ascii (h c hc))

/-- UPDATE's listing, as a mnemonic and a number (R56). -/
theorem listing_update {cmd d : Word} (h : decode cmd = .command (.update d)) :
    listing cmd = "update".toList ++ ' ' :: '0' :: 'x' :: hexDigits 2 d.toNat := by
  simp only [listing, h]
  rfl

/-- A reserved word's listing, as a mnemonic and a number (R56). -/
theorem listing_reserved {cmd : Word} (h : isReserved cmd = true) :
    listing cmd = ".reserved".toList ++ ' ' :: '0' :: 'x' :: hexDigits 4 cmd.toNat := by
  obtain ⟨c, hc⟩ := isReserved_iff.mp h
  simp only [listing, hc]
  rfl

/-- A number in hexadecimal is one token. -/
theorem lex_hexDigits (k n : Nat) :
    lex .between ('0' :: 'x' :: hexDigits k n) = some [.word ('0' :: 'x' :: hexDigits k n)] := by
  have hdigits (k n : Nat) : (hexDigits k n).all isPlain = true := by
    induction k generalizing n with
    | zero => rfl
    | succ k ih => simp [hexDigits, List.all_append, ih, isPlain_hexDigit (Nat.mod_lt n (by decide))]
  have hbase : isPlain '0' = true ∧ isPlain 'x' = true := by decide
  exact lex_word (List.cons_ne_nil _ _) (by simp [hbase, hdigits])

/-- A listed word with a number assembles as its mnemonic reads the number. -/
theorem assembleLine_hexDigits {m : List Char} (hne : m ≠ []) (hm : m.all isPlain = true) (k n : Nat) :
    assembleLine (m ++ ' ' :: '0' :: 'x' :: hexDigits k n) =
      (parseLine [.word m, .word ('0' :: 'x' :: hexDigits k n)]).map AsmLine.expand := by
  apply assembleLine_of_lex
  rw [lex_word_space hne hm, lex_hexDigits]
  rfl

/-- The listing of an UPDATE assembles to its word (R53, R56). -/
theorem assembleLine_listing_update {cmd d : Word} (h : decode cmd = .command (.update d)) :
    assembleLine (listing cmd) = .ok [.command cmd] := by
  obtain ⟨hwf, hcmd⟩ := decode_eq_command_iff.mp h
  have hd := (wellFormed_update d).mp hwf
  rw [listing_update h, assembleLine_hexDigits (by decide) (by decide), parseLine_update, oneByte,
    byteOperand_word (numberValue_hexDigits hd) hd]
  change Except.ok [Interaction.command (encode (.update (zext16 (BitVec.ofNat 8 d.toNat))))] = _
  rw [← Laws.operand_eq_zext16 hwf, hcmd]

/-- The listing of a reserved word is rejected (R54, R56). -/
theorem assembleLine_listing_reserved {cmd : Word} (h : isReserved cmd = true) :
    assembleLine (listing cmd) = .error .unknownMnemonic := by
  rw [listing_reserved h, assembleLine_hexDigits (by decide) (by decide), parseLine_unknown (by decide)]
  rfl

end Sys2Proof.Machine
end

section
/-! SUPPORT. Running a checksum's commands computes the source's function (00_scope.md R11, 41_accumulate.md R66). -/

namespace Sys2Proof.Machine

/-- A run from no mark goes on through an interaction that does. -/
theorem run_cons_of_next {s u : State} {e : Interaction} (h : interact e s = .next u) (es : List Interaction) :
    (RunRecord.start s).run (e :: es) = (RunRecord.start u).run es := by
  rw [run_cons, apply_next rfl h]
  rfl

/-- The UPDATE of a byte from defined registers writes the two stages' values (R61, R62). -/
theorem interact_update {s : State} {x y : Word} (ha : s.a = some x) (hb : s.b = some y) (d : Byte) :
    interact (.command (encode (.update (zext16 d)))) s =
      .next (s.writeAccumulators (some (stageA x (zext16 d)), some (stageB y (stageA x (zext16 d))))) := by
  rw [interact_command (decode_encode_zext16 d), exec_eq, accumulators_of_some ha hb]
  rfl

/-- One turn of the source's loop is the two stages (00_scope.md R11, 41_accumulate.md R61). -/
theorem sourceLoop_cons (d : Byte) (ds : List Byte) (x y : Word) :
    sourceLoop (d :: ds) (x.toNat, y.toNat) =
      sourceLoop ds ((stageA x (zext16 d)).toNat, (stageB y (stageA x (zext16 d))).toNat) := by
  rw [stageB_toNat, stageA_toNat, zext16_toNat, sourceLoop]

/-- UPDATEs from defined registers write what the source's loop computes from their values. -/
theorem run_updateCommands (ds : List Byte) {s : State} {x y : Word} (ha : s.a = some x) (hb : s.b = some y) :
    ∃ x' y' : Word, (RunRecord.start s).run (updateCommands ds) = .start (s.writeAccumulators (some x', some y')) ∧
      sourceLoop ds (x.toNat, y.toNat) = (x'.toNat, y'.toNat) := by
  induction ds generalizing s x y with
  | nil =>
    refine ⟨x, y, ?_, rfl⟩
    rw [← ha, ← hb]
    rfl
  | cons d ds ih =>
    obtain ⟨x', y', hrun, hloop⟩ := ih (s := s.writeAccumulators
      (some (stageA x (zext16 d)), some (stageB y (stageA x (zext16 d))))) rfl rfl
    exact ⟨x', y', (run_cons_of_next (interact_update ha hb d) _).trans hrun, (sourceLoop_cons d ds x y).trans hloop⟩

/-- The source's loop keeps its two values in [0, 254] (10_state.md R16). -/
theorem sourceLoop_le (ds : List Byte) {v : Nat × Nat} (h : v.1 ≤ 254 ∧ v.2 ≤ 254) :
    (sourceLoop ds v).1 ≤ 254 ∧ (sourceLoop ds v).2 ≤ 254 := by
  induction ds generalizing v with
  | nil => exact h
  | cons d ds ih =>
    apply ih
    dsimp only
    omega

/-- The packed pair of the loop's values is the source's function of all the bytes (00_scope.md R11). -/
theorem packResult_sourceLoop {ds : List Byte} {x y : Word} (h : sourceLoop ds (0, 0) = (x.toNat, y.toNat)) :
    (packResult (x, y)).toNat = fletcher16 ds ds.length := by
  obtain ⟨hx, hy⟩ := sourceLoop_le ds (v := (0, 0)) (by decide)
  simp only [h] at hx hy
  have hor := Nat.shiftLeft_add_eq_or_of_lt (show x.toNat < 2 ^ 8 by omega) y.toNat
  rw [Nat.shiftLeft_eq] at hor
  rw [packResult_toNat hx hy, fletcher16, List.take_length, h, Nat.shiftLeft_eq]
  exact hor

/-- A good run that ends with defined registers has their packed pair as its result (70_reset_and_hazards.md R94). -/
theorem result_start {s : State} {x y : Word} (ha : s.a = some x) (hb : s.b = some y) :
    (RunRecord.start s).result = some (packResult (x, y)) := by
  have hport : readPort s = .ok (packResult (x, y)) := readPort_eq_ok.mpr ⟨(x, y), accumulators_of_some ha hb, rfl⟩
  simp [RunRecord.result, RunRecord.start, RunRecord.Good, hport, Except.toOption]

/-- A checksum's commands after any good run leave the source's function of the bytes as the result
(41_accumulate.md R66). -/
theorem result_run_checksumCommands {r : RunRecord} (hr : r.Good) (ds : List Byte) :
    ∃ v, (r.run (checksumCommands ds)).result = some v ∧ v.toNat = fletcher16 ds ds.length := by
  obtain ⟨x, y, hrun, hloop⟩ := run_updateCommands ds (zeroAccumulators_a r.state) (zeroAccumulators_b r.state)
  refine ⟨packResult (x, y), ?_, packResult_sourceLoop hloop⟩
  have hclear : interact (.command (encode .clear)) r.state = .next r.state.zeroAccumulators :=
    (interact_command (i := .clear) rfl r.state).trans (exec_eq .clear r.state)
  rw [good_and_state_iff.mp ⟨hr, rfl⟩, checksumCommands, run_cons_of_next hclear, hrun]
  exact result_start rfl rfl

end Sys2Proof.Machine
end

section
/-! The statements of 30_encoding.md about the assembler, settled. -/

namespace Sys2Proof.Machine

/-- Settles O52: each rejection is one branch of the parser, and what a line emits it encodes from an admitted command,
which decodes. -/
theorem assemblerRejections : Obligations.AssemblerRejections := by
  refine ⟨fun cs v hv hlarge => ?_, rfl, fun t ts => ⟨rfl, rfl⟩, fun m ts h => parseLine_unknown h ts,
    fun line e h => ?_, fun lines cmd h => ?_⟩
  · rw [parseLine_update, oneByte, byteOperand_outOfRange hv hlarge]
    rfl
  · simp [emittedLine, h]
  · obtain ⟨line, -, hline⟩ := List.mem_flatMap.mp h
    obtain ⟨l, hl⟩ := exists_expand_of_mem_emittedLine hline
    obtain ⟨i, hwf, rfl⟩ := encoded_of_mem_expand hl
    exact not_isReserved_iff.mpr ⟨i, decode_encode hwf⟩

/-- Settles O53: a listed word is a mnemonic and, but for NOP and CLEAR, a number, which the assembler reads back. -/
theorem listingAssemblesBack : Obligations.ListingAssemblesBack := by
  refine ⟨rfl, rfl, fun d hd => ?_, fun cmd h => ?_, fun cmd h => ?_, fun cmd h => assembleLine_listing_reserved h⟩
  · have hop : (BitVec.ofNat 16 (0x0200 + d)).toNat / 256 = 2 := by rw [BitVec.toNat_ofNat]; omega
    obtain ⟨e, he⟩ := decode_eq_some_update_iff.mpr hop
    have hdata : e.toNat = d := by
      rw [(decode_eq_update_iff.mp he).2, BitVec.toNat_ofNat]
      omega
    rw [listing_update he, hdata, hexDigits_two hd]
    rfl
  · rw [listing_reserved h, hexDigits_four cmd.isLt]
    rfl
  · obtain ⟨i, hi⟩ := not_isReserved_iff.mp h
    cases i with
    | nop =>
      obtain rfl : (0x0000 : Word) = cmd := (decode_eq_command_iff.mp hi).2
      decide
    | clear =>
      obtain rfl : (0x0100 : Word) = cmd := (decode_eq_command_iff.mp hi).2
      decide
    | update d => exact assembleLine_listing_update hi

/-- Settles O54: what each form reads, what it expands to, its text assembled, and the run of a checksum. -/
theorem pseudoInstructionsExpand : Obligations.PseudoInstructionsExpand := by
  refine ⟨fun ds => ⟨?_, rfl, rfl, rfl⟩, fun cs v => byteOperand_word, fun c => asciiByte_ascii,
    fun ops hne h => ⟨?_, parseLine_checksum (byteList_intersperse hne h)⟩, rfl,
    fun cs h => ⟨oneString_ascii .updateAscii h, oneString_ascii .checksumAscii h⟩,
    fun cs h => ⟨oneString_nonAscii .updateAscii h, oneString_nonAscii .checksumAscii h⟩,
    fun cs h hq => ⟨?_, ?_⟩, fun r ds hr => result_run_checksumCommands hr ds⟩
  · exact List.map_eq_flatMap
  · rw [parseLine_updateBytes, byteList_intersperse hne h]
    rfl
  · refine (assembleLine_quoted (m := "update.ascii".toList) (by decide) (by decide) hq).trans ?_
    rw [parseLine_updateAscii, oneString_ascii _ h]
    exact congrArg Except.ok (updateCommands_ascii h)
  · refine (assembleLine_quoted (m := "checksum.ascii".toList) (by decide) (by decide) hq).trans ?_
    rw [parseLine_checksumAscii, oneString_ascii _ h]
    exact congrArg (fun es => Except.ok (Interaction.command 0x0100 :: es)) (updateCommands_ascii h)

end Sys2Proof.Machine
end

section
/-! SUPPORT. NOP and CLEAR as interactions of a run, and the words beside them: facts the statements of 40_control.md
share. -/

namespace Sys2Proof.Machine

/-- A word with NOP's or CLEAR's opcode and data that is not 0 is reserved (30_encoding.md R49). -/
theorem isReserved_ofNat_of_nonzeroData {n : Nat} (hop : n / 256 ≤ 1) (hdata : n % 256 ≠ 0) :
    isReserved (BitVec.ofNat 16 n) = true := by
  have hn : (BitVec.ofNat 16 n).toNat = n := by rw [BitVec.toNat_ofNat]; omega
  exact isReserved_iff_classes.mpr (.inl ⟨by rwa [hn], by rwa [hn]⟩)

/-- The NOP word answers the state it meets (40_control.md R57). -/
theorem interact_nop (s : State) : interact (.command 0x0000) s = .next s :=
  (interact_command (i := .nop) rfl s).trans (exec_eq .nop s)

/-- The CLEAR word zeroes the accumulators (40_control.md R58). -/
theorem interact_clear (s : State) : interact (.command 0x0100) s = .next s.zeroAccumulators :=
  (interact_command (i := .clear) rfl s).trans (exec_eq .clear s)

/-- A refused run takes no further interaction (60_exceptions.md R76). -/
theorem apply_of_refused {r : RunRecord} {x : Refusal} (h : r.refusal = some x) (e : Interaction) : r.apply e = r :=
  run_of_refused h [e]

/-- NOP changes nothing of a run, its marks included (40_control.md R57). -/
theorem apply_nop (r : RunRecord) : r.apply (.command 0x0000) = r := by
  cases hr : r.refusal with
  | none => exact apply_next hr (interact_nop r.state)
  | some x => exact apply_of_refused hr _

/-- A second CLEAR changes nothing of a run that has just taken one (40_control.md R58). -/
theorem apply_clear_idem (r : RunRecord) :
    (r.apply (.command 0x0100)).apply (.command 0x0100) = r.apply (.command 0x0100) := by
  cases hr : r.refusal with
  | none =>
    rw [apply_next hr (interact_clear r.state)]
    exact apply_next hr (interact_clear r.state.zeroAccumulators)
  | some x => rw [apply_of_refused hr, apply_of_refused hr]

/-- An interaction that changes nothing of a run may be repeated at will. -/
theorem run_replicate_of_apply_eq {r : RunRecord} {e : Interaction} (h : r.apply e = r) (k : Nat) :
    r.run (List.replicate k e) = r := by
  induction k with
  | zero => rfl
  | succ k ih => rw [List.replicate_succ, run_cons, h, ih]

/-- Interactions that change nothing of any run may be taken out of a run. -/
theorem run_filter_ne {e₀ : Interaction} (h : ∀ r : RunRecord, r.apply e₀ = r) (r : RunRecord) (es : List Interaction) :
    r.run (es.filter fun e => decide (e ≠ e₀)) = r.run es := by
  induction es generalizing r with
  | nil => rfl
  | cons e es ih =>
    by_cases he : e = e₀
    · rw [List.filter_cons_of_neg (by simpa using he), ih, run_cons, he, h]
    · rw [List.filter_cons_of_pos (by simpa using he), run_cons, run_cons, ih]

/-- UPDATE 0 adds a non-zero `a` below 255 to `b`, so that `b` is another remainder (41_accumulate.md R60, R61). -/
theorem stageB_stageA_zero_ne {x y : Word} (hx : x.toNat ≤ 254) (h0 : x ≠ 0) : stageB y (stageA x 0) ≠ y := by
  intro heq
  have hsum := congrArg BitVec.toNat heq
  rw [stageB_toNat, stageA_toNat, show (0 : Word).toNat = 0 from rfl] at hsum
  have hpos : x.toNat ≠ 0 := fun h => h0 (BitVec.eq_of_toNat_eq h)
  omega

end Sys2Proof.Machine
end

section
/-! The statements of 40_control.md, settled. -/

namespace Sys2Proof.Machine

/-- Settles O36: either interaction zeroes the accumulators. -/
theorem clearAndResetHaveTheSameEffect : Obligations.ClearAndResetHaveTheSameEffect := by
  rintro s s' rest hp rfl
  rw [step_of_pending hp, interact_clear, step_of_pending rfl]
  rfl

/-- Settles O15: NOP leaves every run record as it is, where UPDATE 0 adds a non-zero `a` to `b`. -/
theorem nopChangesNothing : Obligations.NopChangesNothing := by
  refine ⟨rfl, exec_eq .nop, fun n h1 h2 => isReserved_ofNat_of_nonzeroData (by omega) (by omega), ?_,
    fun r es => (run_filter_ne apply_nop r es).symm⟩
  rintro s t x ⟨hxr, -⟩ ⟨-, hdef⟩ ha h0 h
  obtain ⟨y, hb⟩ := Option.isSome_iff_exists.mp hdef
  have hx : x.toNat ≤ 254 := by simpa [ha, Cell.InRange] using hxr
  cases (exec_eq (.update 0) s).symm.trans h
  rw [writeAccumulators_b, accumulators_of_some ha hb, hb]
  exact fun heq => stageB_stageA_zero_ne hx h0 (Option.some.inj heq)

/-- Settles O16: CLEAR writes the zeros, their packed pair is zero, and a CLEAR after a CLEAR changes nothing. -/
theorem clearStartsANewChecksum : Obligations.ClearStartsANewChecksum :=
  ⟨rfl, exec_eq .clear, fun _ => readPort_eq_ok.mpr ⟨(0, 0), rfl, rfl⟩,
    fun n h1 h2 => isReserved_ofNat_of_nonzeroData (by omega) (by omega),
    fun r k => run_replicate_of_apply_eq (apply_clear_idem r) k⟩

end Sys2Proof.Machine
end

section
/-! SUPPORT. UPDATE as the two stages, the two stages as arithmetic, and the circuits beside them as the same arithmetic:
facts the statements of 41_accumulate.md about one command share. -/

namespace Sys2Proof.Machine

/-- UPDATE from registers that hold values writes the two stages' values (41_accumulate.md R61, R62). -/
theorem exec_update_of_some {s : State} {x y : Word} (ha : s.a = some x) (hb : s.b = some y) (d : Word) :
    exec (.update d) s = .next (s.writeAccumulators (some (stageA x d), some (stageB y (stageA x d)))) := by
  rw [exec_eq, accumulators_of_some ha hb]
  rfl

/-- Stage B's value after stage A, written out (R61). -/
theorem stageB_stageA_eq_ofNat (x y d : Word) :
    stageB y (stageA x d) = BitVec.ofNat 16 ((y.toNat + (x.toNat + d.toNat) % 255) % 255) := by
  rw [stageB, stageA_toNat, red255_eq]

/-- Stage A's value is a remainder mod 255 (R60, R63). -/
theorem stageA_toNat_le (x d : Word) : (stageA x d).toNat ≤ 254 := by
  rw [stageA_toNat]
  omega

/-- Stage B's value is a remainder mod 255 (R60, R63). -/
theorem stageB_toNat_le (y a' : Word) : (stageB y a').toNat ≤ 254 := by
  rw [stageB_toNat]
  omega

/-- Adding 0 to a value in range changes nothing (R74). -/
theorem stageA_zero {x : Word} (hx : x.toNat ≤ 254) : stageA x 0 = x := by
  apply BitVec.eq_of_toNat_eq
  rw [stageA_toNat, show (0 : Word).toNat = 0 from rfl]
  omega

/-- 255 is 0 mod 255, so stage A cannot tell the two inputs apart (R73). -/
theorem stageA_FF (x : Word) : stageA x 0x00FF = stageA x 0x0000 := by
  apply BitVec.eq_of_toNat_eq
  rw [stageA_toNat, stageA_toNat, show (0x00FF : Word).toNat = 255 from rfl, show (0x0000 : Word).toNat = 0 from rfl]
  omega

/-- Adding a value in range to another gives the latter back exactly when the former is 0 (R74). -/
theorem stageB_eq_self_iff {x y : Word} (hx : x.toNat ≤ 254) (hy : y.toNat ≤ 254) : stageB y x = y ↔ x = 0 := by
  rw [← BitVec.toNat_inj, ← BitVec.toNat_inj, stageB_toNat, show (0 : Word).toNat = 0 from rfl]
  omega

/-- A cell in range that holds a value holds one of at most 254 (10_state.md R16). -/
theorem toNat_le_of_inRange {c : Cell} {x : Word} (h : c.InRange) (hc : c = some x) : x.toNat ≤ 254 := by
  simpa [hc, Cell.InRange] using h

/-- Two chained stages of any circuit that is exact on sums up to 509 give UPDATE's pair: neither stage's sum is ever
larger (R63). -/
theorem reducePairWith_eq_reducePair {stage : Word → Word → Word}
    (hstage : ∀ x y : Word, x.toNat + y.toNat ≤ 509 → (stage x y).toNat = (x.toNat + y.toNat) % 255)
    {a b d : Word} (ha : a.toNat ≤ 254) (hb : b.toNat ≤ 254) (hd : d.toNat ≤ 255) :
    reducePairWith stage d (a, b) = reducePair d (a, b) := by
  have hle := stageA_toNat_le a d
  have hA : stage a d = stageA a d :=
    BitVec.eq_of_toNat_eq ((hstage a d (by omega)).trans (stageA_toNat a d).symm)
  have hB : stage b (stageA a d) = stageB b (stageA a d) :=
    BitVec.eq_of_toNat_eq ((hstage b _ (by omega)).trans (stageB_toNat b _).symm)
  simp only [reducePairWith, reducePair, hA, hB]

/-- Nine bits hold every sum up to 509 (R63). -/
theorem add_nineBits_toNat {x y : Word} (h : x.toNat + y.toNat ≤ 509) :
    (x.setWidth 9 + y.setWidth 9 : BitVec 9).toNat = x.toNat + y.toNat := by
  simp only [BitVec.toNat_add, BitVec.toNat_setWidth]
  omega

/-- The 16-bit stage is exact on sums up to 509 (R63). -/
theorem stage16_toNat {x y : Word} (h : x.toNat + y.toNat ≤ 509) : (stage16 x y).toNat = (x.toNat + y.toNat) % 255 := by
  rw [stage16, BitVec.toNat_umod, BitVec.toNat_add, show (255 : Word).toNat = 255 from rfl]
  omega

/-- The 9-bit stage with a remainder is exact on sums up to 509 (R63). -/
theorem stage9Mod_toNat {x y : Word} (h : x.toNat + y.toNat ≤ 509) :
    (stage9Mod x y).toNat = (x.toNat + y.toNat) % 255 := by
  rw [stage9Mod, BitVec.toNat_setWidth, BitVec.toNat_umod, add_nineBits_toNat h, show (255 : BitVec 9).toNat = 255 from rfl]
  omega

/-- Up to 509 one conditional subtraction of 255 is the remainder (R64). -/
theorem conditionalSubtract_eq_mod {x : Nat} (h : x ≤ 509) : conditionalSubtract x = x % 255 := by
  unfold conditionalSubtract
  split <;> omega

/-- On sums up to 509 the 9-bit stage that subtracts computes the conditional subtraction of the exact sum (R64). -/
theorem stage9_toNat {x y : Word} (h : x.toNat + y.toNat ≤ 509) :
    (stage9 x y).toNat = conditionalSubtract (x.toNat + y.toNat) := by
  have hsum := add_nineBits_toNat h
  simp only [stage9, conditionalSubtract, BitVec.toNat_setWidth, BitVec.le_def, hsum,
    show (255 : BitVec 9).toNat = 255 from rfl]
  split
  · rw [BitVec.toNat_sub, hsum, show (255 : BitVec 9).toNat = 255 from rfl]
    omega
  · rw [hsum]
    omega

/-- The end-around-carry fold as arithmetic: the low byte plus what is above it (R65). -/
theorem endAroundFold_eq (x : Nat) : endAroundFold x = x % 256 + x / 256 := by
  rw [endAroundFold, Nat.shiftRight_eq_div_pow, show 0xFF = 2 ^ 8 - 1 from rfl, Nat.and_two_pow_sub_one_eq_mod]

end Sys2Proof.Machine
end

section
/-! SUPPORT. Checksum sequences in a run: what a first CLEAR or reset makes of it, its first commands, leading zero bytes, the
closed form of the source's loop, and the range invariant along a run: facts the statements of 41_accumulate.md about
sequences share. -/

namespace Sys2Proof.Machine

/-- A run ends with a result exactly when it is good and its last state's port gives one (70_reset_and_hazards.md R94). -/
theorem result_eq_some {r : RunRecord} {v : Word} : r.result = some v ↔ r.Good ∧ readPort r.state = .ok v := by
  by_cases hr : r.Good
  · rw [RunRecord.result, if_pos hr, and_iff_right hr]
    cases readPort r.state <;> simp [Except.toOption]
  · rw [RunRecord.result, if_neg hr]
    exact iff_of_false nofun fun h => hr h.1

/-- A first CLEAR makes a good run one that starts from the zeros (40_control.md R58). -/
theorem run_clear_cons {r : RunRecord} (hr : r.Good) (es : List Interaction) :
    r.run (.command 0x0100 :: es) = (RunRecord.start r.state.zeroAccumulators).run es := by
  rw [good_and_state_iff.mp ⟨hr, rfl⟩]
  exact run_cons_of_next (interact_clear r.state) es

/-- A reset in a CLEAR's place makes no difference to a run (40_control.md R59). -/
theorem run_reset_updateCommands (r : RunRecord) (ds : List Byte) :
    r.run (.reset :: updateCommands ds) = r.run (checksumCommands ds) := by
  have hsame : r.apply .reset = r.apply (.command 0x0100) := by
    rw [RunRecord.apply, RunRecord.apply, interact_clear]
    rfl
  rw [run_cons, hsame]
  rfl

/-- A checksum's commands after a good run write what the source's loop computes from zeros (41_accumulate.md R66). -/
theorem run_checksumCommands {r : RunRecord} (hr : r.Good) (ds : List Byte) :
    ∃ x y : Word, r.run (checksumCommands ds) = .start (r.state.writeAccumulators (some x, some y)) ∧
      sourceLoop ds (0, 0) = (x.toNat, y.toNat) := by
  obtain ⟨x, y, hrun, hloop⟩ := run_updateCommands ds (zeroAccumulators_a r.state) (zeroAccumulators_b r.state)
  exact ⟨x, y, (run_clear_cons hr (updateCommands ds)).trans hrun, hloop⟩

/-- The first UPDATEs of a sequence are the UPDATEs of the first bytes (20_memory.md R31). -/
theorem take_updateCommands (ds : List Byte) (k : Nat) : (updateCommands ds).take k = updateCommands (ds.take k) :=
  List.map_take.symm

/-- CLEAR and the first UPDATEs of a sequence are the checksum's commands of the first bytes (41_accumulate.md R70). -/
theorem take_checksumCommands (ds : List Byte) (k : Nat) :
    (checksumCommands ds).take (k + 1) = checksumCommands (ds.take k) := by
  rw [checksumCommands, List.take_succ_cons, take_updateCommands, checksumCommands]

/-- The source's function reads the first `count` bytes only (R67). -/
theorem fletcher16_take (ds : List Byte) (k : Nat) : fletcher16 (ds.take k) (ds.take k).length = fletcher16 ds k := by
  rw [fletcher16, List.take_length, fletcher16]

/-- After a good run, CLEAR or a reset and the UPDATEs of the first `k` bytes give the source's function with count `k`
as the result (R66, R70). -/
theorem result_run_take {r : RunRecord} (hr : r.Good) (ds : List Byte) (k : Nat) :
    ∃ v, (r.run (checksumCommands (ds.take k))).result = some v ∧
      (r.run (.reset :: updateCommands (ds.take k))).result = some v ∧ v.toNat = fletcher16 ds k := by
  obtain ⟨v, hresult, hv⟩ := result_run_checksumCommands hr (ds.take k)
  exact ⟨v, hresult, by rw [run_reset_updateCommands, hresult], hv.trans (fletcher16_take ds k)⟩

/-- From zeros, the bytes 0x00 and 0xFF leave zeros (R73, R74). -/
theorem run_zeroBytes {s : State} (ha : s.a = some 0) (hb : s.b = some 0) {zeros : List Byte}
    (h : ∀ z ∈ zeros, z = 0x00 ∨ z = 0xFF) : (RunRecord.start s).run (updateCommands zeros) = .start s := by
  induction zeros with
  | nil => rfl
  | cons z zs ih =>
    have hA : stageA 0 (zext16 z) = 0 := by obtain rfl | rfl := h z List.mem_cons_self <;> decide
    have hB : stageB 0 0 = 0 := by decide
    have hsame : s.writeAccumulators (some 0, some 0) = s :=
      congrArg₂ (fun a b => s.writeAccumulators (a, b)) ha.symm hb.symm
    have hz := interact_update ha hb z
    rw [hA, hB, hsame] at hz
    exact (run_cons_of_next hz _).trans (ih fun z' hz' => h z' (List.mem_cons_of_mem z hz'))

/-- Leading bytes 0x00 and 0xFF after a CLEAR change nothing of a good run (R74). -/
theorem run_checksumCommands_zeroBytes_append {r : RunRecord} (hr : r.Good) {zeros : List Byte}
    (h : ∀ z ∈ zeros, z = 0x00 ∨ z = 0xFF) (ds : List Byte) :
    r.run (checksumCommands (zeros ++ ds)) = r.run (checksumCommands ds) := by
  have hsplit : updateCommands (zeros ++ ds) = updateCommands zeros ++ updateCommands ds := List.map_append
  calc r.run (checksumCommands (zeros ++ ds))
      = (RunRecord.start r.state.zeroAccumulators).run (updateCommands zeros ++ updateCommands ds) := by
        rw [← hsplit]
        exact run_clear_cons hr _
    _ = (RunRecord.start r.state.zeroAccumulators).run (updateCommands ds) := by
        rw [run_append, run_zeroBytes rfl rfl h]
    _ = r.run (checksumCommands ds) := (run_clear_cons hr _).symm

/-- A CLEAR alone gives the result 0 after every good run (R68). -/
theorem result_run_clear {r : RunRecord} (hr : r.Good) : (r.run [.command 0x0100]).result = some 0x0000 := by
  rw [run_clear_cons hr, run_nil]
  exact result_start (zeroAccumulators_a _) (zeroAccumulators_b _)

/-- The closed form of the source's loop: a byte enters the first value once, and the second once for each turn from its
own to the last; the first value from before enters the second once for each turn (R71). -/
theorem sourceLoop_eq_sum (ds : List Byte) {x y : Nat} (hx : x ≤ 254) (hy : y ≤ 254) :
    sourceLoop ds (x, y) =
      ((x + ∑ i : Fin ds.length, ds[i].toNat) % 255,
       (y + ds.length * x + ∑ i : Fin ds.length, (ds.length - i.val) * ds[i].toNat) % 255) := by
  induction ds generalizing x y with
  | nil =>
    simp [sourceLoop]
    omega
  | cons d ds ih =>
    have hsum : ∑ i : Fin (d :: ds).length, (d :: ds)[i].toNat = d.toNat + ∑ i : Fin ds.length, ds[i].toNat :=
      Fin.sum_univ_succ _
    have hweighted : ∑ i : Fin (d :: ds).length, ((d :: ds).length - i.val) * (d :: ds)[i].toNat =
        (ds.length + 1) * d.toNat + ∑ i : Fin ds.length, (ds.length - i.val) * ds[i].toNat := by
      refine (Fin.sum_univ_succ _).trans ?_
      simp
    have hcarry : ds.length * ((x + d.toNat) % 255) % 255 = (ds.length * x + ds.length * d.toNat) % 255 := by
      rw [Nat.mul_mod_mod, Nat.mul_add]
    rw [sourceLoop, ih (by omega) (by omega), hsum, hweighted, List.length_cons, Nat.succ_mul, Nat.succ_mul]
    refine Prod.ext ?_ ?_ <;> dsimp only <;> omega

/-- One interaction of a run leaves its state, or is what the block does at it (60_exceptions.md R76, R77). -/
theorem apply_state_cases (r : RunRecord) (e : Interaction) :
    (r.apply e).state = r.state ∨ interact e r.state = .next (r.apply e).state := by
  unfold RunRecord.apply
  split
  · exact .inl rfl
  · cases h : interact e r.state <;> simp

/-- An interaction that goes on keeps the range, as a step that takes it does (10_state.md R16). -/
theorem interact_keeps_range {e : Interaction} {s t : State} (hs : s.InRange) (h : interact e s = .next t) : t.InRange :=
  everyStepKeepsTheRange { s with pending := e :: s.pending } t hs ((step_of_pending rfl).trans h)

/-- A whole run keeps the range (10_state.md R16). -/
theorem run_keeps_range {r : RunRecord} (hr : r.state.InRange) (es : List Interaction) : (r.run es).state.InRange := by
  induction es generalizing r with
  | nil => exact hr
  | cons e es ih =>
    apply ih
    obtain hsame | hnext := apply_state_cases r e
    · rwa [hsame]
    · exact interact_keeps_range hr hnext

/-- The two bytes R72 gives take the source's loop from zeros to any pair in range. -/
theorem sourceLoop_two_bytes {A B : Nat} (hA : A ≤ 254) (hB : B ≤ 254) :
    sourceLoop [BitVec.ofNat 8 ((B + 255 - A) % 255), BitVec.ofNat 8 ((2 * A + 255 - B) % 255)] (0, 0) = (A, B) := by
  have hbyte (n : Nat) : (BitVec.ofNat 8 (n % 255)).toNat = n % 255 := by rw [BitVec.toNat_ofNat]; omega
  simp only [sourceLoop, hbyte, Nat.zero_add, Nat.mod_mod, Nat.mod_add_mod, Nat.add_mod_mod, Prod.mk.injEq]
  omega

end Sys2Proof.Machine
end

section
/-! The statements of 41_accumulate.md, settled. -/

namespace Sys2Proof.Machine

/-- Settles O17: the word decodes because it is the encoding; the two stages give the values; without a pair to read
UPDATE writes none. -/
theorem updateAddsOneByte : Obligations.UpdateAddsOneByte := by
  refine ⟨fun d hd => decode_encode (i := .update d) ((wellFormed_update d).mpr hd), fun s d x y ha hb => ?_, fun s d h => ?_⟩
  · rw [exec_update_of_some ha hb, stageB_stageA_eq_ofNat]
    rfl
  · rw [exec_eq, accumulators_eq_none.mpr h]
    rfl

/-- Settles O18: the port packs the two stages' values, which are in range. -/
theorem updateShowsOnTheResultPort : Obligations.UpdateShowsOnTheResultPort := by
  intro s t d x y _ ha hb h
  cases (exec_update_of_some ha hb d).symm.trans h
  refine ⟨_, readPort_eq_ok.mpr ⟨_, accumulators_of_some rfl rfl, rfl⟩, ?_⟩
  rw [packResult_toNat (stageA_toNat_le x d) (stageB_toNat_le y _), stageB_toNat, stageA_toNat]

/-- Settles O19: NOP keeps the two cells, CLEAR zeroes them, and UPDATE computes from the pair they hold. -/
theorem commandsDependOnTheAccumulatorsOnly : Obligations.CommandsDependOnTheAccumulatorsOnly := by
  intro i s s' t t' ha hb h h'
  cases (exec_eq i s).symm.trans h
  cases (exec_eq i s').symm.trans h'
  cases i with
  | nop => exact ⟨ha, hb⟩
  | clear => exact ⟨rfl, rfl⟩
  | update d => simp [accumulators_congr ha hb]

/-- Settles O22: the bounds are those of remainders, and both circuits are exact on sums up to 509. -/
theorem sumsNeverOverflow : Obligations.SumsNeverOverflow := by
  intro a b d ha hb hd
  have hA := stageA_toNat_le a d
  exact ⟨by omega, hA, by omega, reducePairWith_eq_reducePair (fun _ _ => stage9Mod_toNat) ha hb hd,
    reducePairWith_eq_reducePair (fun _ _ => stage16_toNat) ha hb hd⟩

/-- Settles O23: one subtraction is the remainder up to 509, and the datapath subtracts once from such a sum. -/
theorem conditionalSubtractIsExact : Obligations.ConditionalSubtractIsExact :=
  ⟨fun _ => conditionalSubtract_eq_mod, fun _ _ _ => reducePairWith_eq_reducePair
    fun _ _ h => (stage9_toNat h).trans (conditionalSubtract_eq_mod h)⟩

/-- Settles O41: the sequence is the checksum's commands of the first `count` bytes. -/
theorem commandSequenceComputesFletcher16 : Obligations.CommandSequenceComputesFletcher16 := by
  intro r data count hr hcount
  obtain ⟨v, hclear, hreset, hv⟩ := result_run_take hr data count
  exact ⟨_, v, if_pos hcount, rfl, (result_eq_some.mp hclear).1, hclear, hreset, hv⟩

/-- Settles O44: the first `k + 1` commands are the checksum's commands of the first `k` bytes. -/
theorem resultIsThePrefixChecksum : Obligations.ResultIsThePrefixChecksum := by
  intro r data k hr _
  obtain ⟨v, hclear, hreset, hv⟩ := result_run_take hr data k
  rw [take_checksumCommands, take_updateCommands]
  refine ⟨v, hclear, hreset, hv, ?_⟩
  rw [fletcher16, fletcher16, List.take_take, Nat.min_self]

/-- Settles O45: the registers hold what the source's loop computes from zeros, which has the closed form. -/
theorem closedFormOfTheAccumulators : Obligations.ClosedFormOfTheAccumulators := by
  intro r data hr
  obtain ⟨x, y, hrun, hloop⟩ := run_checksumCommands hr data
  rw [sourceLoop_eq_sum data (Nat.zero_le _) (Nat.zero_le _), Nat.mul_zero, Nat.add_zero, Nat.zero_add, Nat.zero_add] at hloop
  obtain ⟨hx, hy⟩ := Prod.ext_iff.mp hloop
  dsimp only at hx hy
  rw [hrun, hx, hy, BitVec.ofNat_toNat, BitVec.ofNat_toNat, BitVec.setWidth_eq, BitVec.setWidth_eq]
  exact ⟨rfl, rfl⟩

/-- Settles O46: a run keeps the range, so the packed bytes are at most 254; and the two bytes of R72 lead anywhere. -/
theorem reachableResults : Obligations.ReachableResults := by
  refine ⟨fun s es v hs h => ?_, fun A B hA hB => ?_⟩
  · obtain ⟨-, hport⟩ := result_eq_some.mp h
    obtain ⟨⟨x, y⟩, hacc, rfl⟩ := readPort_eq_ok.mp hport
    obtain ⟨ha, hb⟩ := accumulators_eq_some.mp hacc
    obtain ⟨hra, hrb⟩ := run_keeps_range (r := .start s) hs es
    have hx := toNat_le_of_inRange hra ha
    have hy := toNat_le_of_inRange hrb hb
    rw [packResult_toNat hx hy]
    omega
  · obtain ⟨x, y, hrun, hloop⟩ := run_updateCommands
      [BitVec.ofNat 8 ((B + 255 - A) % 255), BitVec.ofNat 8 ((2 * A + 255 - B) % 255)]
      (s := .reset) (x := 0) (y := 0) rfl rfl
    obtain ⟨rfl, rfl⟩ := Prod.ext_iff.mp ((sourceLoop_two_bytes hA hB).symm.trans hloop)
    rw [hrun, result_start rfl rfl, ← packResult_toNat hA hB, BitVec.ofNat_toNat, BitVec.setWidth_eq]

/-- Settles O47: stage A cannot tell 255 from 0, and leading bytes of that kind count as none. -/
theorem zeroAndFFAreTheSameInput : Obligations.ZeroAndFFAreTheSameInput := by
  refine ⟨fun s => ?_, fun r data hr h => ?_⟩
  · rw [exec_eq, exec_eq]
    cases s.accumulators with
    | none => rfl
    | some v => simp only [accumulate, reducePair, stageA_FF]
  · have hzeros := run_checksumCommands_zeroBytes_append hr h []
    rw [List.append_nil] at hzeros
    rw [hzeros]
    exact result_run_clear hr

/-- Settles O48: UPDATE 0 leaves a value in range and adds it to `b`; from zeros that adds nothing. -/
theorem zeroBytes : Obligations.ZeroBytes := by
  refine ⟨fun s x y ⟨hra, hrb⟩ ha hb => ?_, fun r zeros data hr h => run_checksumCommands_zeroBytes_append hr h data⟩
  have hx := toNat_le_of_inRange hra ha
  have hy := toNat_le_of_inRange hrb hb
  refine ⟨?_, stageB_eq_self_iff hx hy⟩
  rw [exec_update_of_some ha hb, stageA_zero hx, ← ha]
  rfl

/-- Settles O20: the remainder's bound, the division with remainder, and divisibility as remainder 0. -/
theorem reductionIsRemainderMod255 : Obligations.ReductionIsRemainderMod255 := fun x =>
  ⟨Nat.le_of_lt_succ (Nat.mod_lt x (by decide)), ⟨x / 255, (Nat.div_add_mod x 255).symm⟩, Nat.mod_eq_zero_of_dvd⟩

/-- Settles O21: the pair is stage A's value and stage B's value of it. -/
theorem stageBConsumesTheNewA : Obligations.StageBConsumesTheNewA :=
  ⟨fun d a b => ⟨stageA_toNat a d, stageB_toNat b (stageA a d)⟩, by decide⟩

/-- Settles O24: below 255 the fold keeps `x`, from 256 to 509 it takes 255 off, and 255 it leaves. -/
theorem endAroundFoldFailsAt255Only : Obligations.EndAroundFoldFailsAt255Only := by
  refine ⟨fun x hx => ?_, fun x hlow hhigh => ?_, rfl, rfl⟩
  · rw [endAroundFold_eq, red255_eq]
    omega
  · rw [endAroundFold_eq]
    omega

/-- Settles O42: the host's call is a test of `count`, and the sequence maps the first `count` bytes in order. -/
theorem countBeyondTheDataIsRefused : Obligations.CountBeyondTheDataIsRefused := by
  refine fun data count => ⟨fun h => if_neg (Nat.not_le.mpr h), fun h => ⟨_, if_pos h, ?_, fun k d hk hd => ?_⟩⟩
  · rw [updateCommands, List.length_map, List.length_take_of_le h]
  · rw [updateCommands, List.getElem?_map, List.getElem?_take_of_lt hk, hd]
    rfl

/-- Settles O43: of no bytes the sequence is CLEAR alone, which leaves zeros. -/
theorem emptyInputGivesZero : Obligations.EmptyInputGivesZero := fun _ _ hr =>
  ⟨if_pos (Nat.zero_le _), result_run_clear hr⟩

end Sys2Proof.Machine
end

section
/-! SUPPORT. What marks a run and what a mark costs it, what an interaction can do from defined registers, and a step of one
block of several: facts the statements of 60_exceptions.md share. -/

namespace Sys2Proof.Machine

/-- An interaction that is refused leaves its mark on a run that has none, and changes nothing else (60_exceptions.md R76,
R80). -/
theorem apply_refused {r : RunRecord} {e : Interaction} {x : Refusal} (hr : r.refusal = none)
    (h : interact e r.state = .refused x) : r.apply e = { r with refusal := some x } := by
  simp [RunRecord.apply, hr, h]

/-- An interaction that faults is recorded, after any earlier fault, and changes nothing else (60_exceptions.md R77, R80). -/
theorem apply_faulted {r : RunRecord} {e : Interaction} {f : Fault} (hr : r.refusal = none)
    (h : interact e r.state = .fault f) : r.apply e = { r with fault := some (r.fault.getD f) } := by
  simp [RunRecord.apply, hr, h]

/-- A run with a mark has neither observation nor result (70_reset_and_hazards.md R94). -/
theorem unobserved_of_not_good {r : RunRecord} (h : ¬ r.Good) : r.observation = none ∧ r.result = none :=
  ⟨if_neg h, if_neg h⟩

/-- A reserved word as an interaction is refused under its own number (60_exceptions.md R76). -/
theorem interact_reserved {cmd : Word} (h : isReserved cmd = true) (s : State) :
    interact (.command cmd) s = .refused (.reservedCommand cmd) :=
  acceptCommand_reserved h s

/-- A read while a register holds no value faults (60_exceptions.md R77). -/
theorem interact_undefined_read {s : State} (h : s.a = none ∨ s.b = none) :
    interact .readResult s = .fault .undefinedResult :=
  interact_fault.mpr ⟨rfl, accumulators_eq_none.mpr h⟩

/-- An interaction that goes on keeps the registers defined, as a step that takes it does (10_state.md R22). -/
theorem interact_keeps_defined {e : Interaction} {s t : State} (hs : s.Defined) (h : interact e s = .next t) : t.Defined :=
  everyStepKeepsDefinedRegisters { s with pending := e :: s.pending } t hs ((step_of_pending rfl).trans h)

/-- From defined registers every interaction but a reserved word goes on (60_exceptions.md R75, R76). -/
theorem interact_next_of_defined {e : Interaction} {s : State} (hs : s.Defined) (he : presentsReserved e = false) :
    ∃ t, interact e s = .next t := by
  cases e with
  | command cmd =>
    obtain ⟨i, hi⟩ := not_isReserved_iff.mp he
    exact ⟨_, (interact_command hi s).trans (exec_eq i s)⟩
  | reset => exact ⟨_, rfl⟩
  | readResult =>
    obtain ⟨ha, hb⟩ := hs
    obtain ⟨x, hx⟩ := Option.isSome_iff_exists.mp ha
    obtain ⟨y, hy⟩ := Option.isSome_iff_exists.mp hb
    exact ⟨_, interact_readResult hx hy⟩

/-- An interaction that goes on presents no reserved word (60_exceptions.md R76). -/
theorem not_presentsReserved_of_next {e : Interaction} {s t : State} (h : interact e s = .next t) :
    presentsReserved e = false := by
  cases e with
  | command cmd =>
    refine Bool.eq_false_iff.mpr fun hres => ?_
    cases (interact_reserved hres s).symm.trans h
  | reset => rfl
  | readResult => rfl

/-- A run from no mark is good exactly when it has no mark at its end (70_reset_and_hazards.md R94). -/
theorem good_iff_exists_start {r : RunRecord} : r.Good ↔ ∃ t, r = .start t :=
  ⟨fun h => ⟨_, good_and_state_iff.mp ⟨h, rfl⟩⟩, fun ⟨_, h⟩ => (good_and_state_iff.mpr h).1⟩

/-- A step of one block of several that goes on is that block's own step, its state put in its place (60_exceptions.md R86). -/
theorem stepBlock_eq_next {blocks after : List State} {k : Fin blocks.length} :
    stepBlock blocks k = .next after ↔ ∃ t, step blocks[k] = .next t ∧ blocks.set k t = after := by
  unfold stepBlock
  cases step blocks[k] <;> simp

end Sys2Proof.Machine
end

section
/-! The statements of 60_exceptions.md, settled. -/

namespace Sys2Proof.Machine

/-- Settles O10: the word is refused, and the mark it leaves stops the run where it stands. -/
theorem reservedWordMarksTheRunForGood : Obligations.ReservedWordMarksTheRunForGood := by
  refine fun cmd hres => ⟨fun s rest hp => (step_of_pending hp).trans (interact_reserved hres _), fun r es hr => ?_⟩
  have hrun : r.run (.command cmd :: es) = { r with refusal := some (.reservedCommand cmd) } := by
    rw [run_cons, apply_refused hr (interact_reserved hres r.state)]
    exact run_of_refused rfl es
  rw [hrun]
  exact ⟨rfl, rfl, unobserved_of_not_good nofun⟩

/-- Settles O11: the read's fault is recorded, there is only one kind of fault, and no interaction takes a record back. -/
theorem undefinedReadIsRecordedForGood : Obligations.UndefinedReadIsRecordedForGood := by
  refine ⟨fun s rest hp h => (step_of_pending hp).trans (interact_undefined_read h), fun r es hr h => ?_⟩
  have hfault : (r.run (.readResult :: es)).fault = some .undefinedResult := by
    rw [run_cons, apply_faulted hr (interact_undefined_read h)]
    exact run_of_faulted rfl es
  refine ⟨hfault, unobserved_of_not_good fun ⟨hnone, _⟩ => ?_⟩
  cases hnone.symm.trans hfault

/-- Settles O12: an idle step goes on, and any other step stops as the one interaction it takes does. -/
theorem stepsStopForTwoCausesOnly : Obligations.StepsStopForTwoCausesOnly := by
  intro s
  obtain ⟨-, hidle⟩ | ⟨e, rest, hp, hstep⟩ := step_cases s
  · rw [hidle]
    exact ⟨nofun, nofun⟩
  · rw [hstep]
    refine ⟨fun f hf => ?_, fun x hx => ?_⟩
    · obtain ⟨rfl, hnone⟩ := interact_fault.mp hf
      exact ⟨rfl, accumulators_eq_none.mp hnone, rest, hp⟩
    · obtain ⟨cmd, rfl, hres, rfl⟩ := interact_refused hx
      exact ⟨cmd, rest, rfl, hres, hp⟩

/-- Settles O40, along the list: from defined registers the first interaction goes on unless it is a reserved word, and the
registers stay defined. -/
theorem definedRunsAreGoodWithoutReservedWords : Obligations.DefinedRunsAreGoodWithoutReservedWords := by
  intro s es hs
  induction es generalizing s with
  | nil => exact iff_of_true ⟨rfl, rfl⟩ (List.forall_mem_nil _)
  | cons e es ih =>
    rw [List.forall_mem_cons]
    constructor
    · intro hgood
      obtain ⟨t, ht⟩ := good_iff_exists_start.mp hgood
      obtain ⟨u, hu, hrun⟩ := run_cons_eq_start.mp ht
      exact ⟨not_presentsReserved_of_next hu, (ih u (interact_keeps_defined hs hu)).mp (good_iff_exists_start.mpr ⟨t, hrun⟩)⟩
    · rintro ⟨he, hes⟩
      obtain ⟨u, hu⟩ := interact_next_of_defined hs he
      rw [run_cons_of_next hu]
      exact (ih u (interact_keeps_defined hs hu)).mpr hes

/-- Settles O13: with nothing pending there is no interaction to take. -/
theorem idleStepKeepsTheState : Obligations.IdleStepKeepsTheState := by
  intro s hp
  obtain ⟨-, hidle⟩ | ⟨e, rest, hcons, -⟩ := step_cases s
  · exact hidle
  · cases hp.symm.trans hcons

/-- Settles O14: each command goes on, and what it writes is the accumulators. -/
theorem everyCommandCompletes : Obligations.EveryCommandCompletes := by
  intro i s
  refine ⟨_, exec_eq i s, ?_⟩
  cases i with
  | nop => exact ⟨rfl, rfl⟩
  | clear => exact ⟨zeroAccumulators_pending s, zeroAccumulators_reads s⟩
  | update d => exact ⟨writeAccumulators_pending s _, writeAccumulators_reads s _⟩

/-- Settles O35: with a reset asserted the one interaction that arrives is the reset, whatever word is presented. -/
theorem resetBeatsAConcurrentCommand : Obligations.ResetBeatsAConcurrentCommand := by
  refine fun r presented hr => ⟨fun _ => rfl, ?_⟩
  have harrives : (arriving true presented).toList = [.reset] := rfl
  rw [harrives, run_cons, run_nil]
  exact apply_next hr rfl

/-- Settles O56: the step replaces one entry of the list of blocks. -/
theorem blocksShareNoState : Obligations.BlocksShareNoState := by
  intro blocks after k h
  obtain ⟨t, ht, rfl⟩ := stepBlock_eq_next.mp h
  exact ⟨⟨t, ht, List.getElem?_set_self k.isLt⟩, fun j hj => List.getElem?_set_ne hj.symm⟩

end Sys2Proof.Machine
end

section
/-! SUPPORT. The block's own part of a state and of a run, what a whole run keeps, sequences one after another, and the
pipeline's two operations: facts the statements of 70_reset_and_hazards.md share. -/

namespace Sys2Proof.Machine

/-- The block's own state, `a` and `b` (10_state.md R30), with a host that has nothing pending and has read nothing. -/
def State.blockPart (s : State) : State := { s with pending := [], reads := [] }

/-- The block's own part holds the same pair. -/
@[simp] theorem blockPart_accumulators (s : State) : s.blockPart.accumulators = s.accumulators :=
  accumulators_congr rfl rfl

/-- A run with its marks, its state reduced to the block's own. -/
def RunRecord.blockPart (r : RunRecord) : RunRecord := { r with state := r.state.blockPart }

/-- Two runs with the same block part end with the same registers and the same marks. -/
theorem runBlockPart_eq_iff {r r' : RunRecord} :
    r.blockPart = r'.blockPart ↔
      r.state.a = r'.state.a ∧ r.state.b = r'.state.b ∧ r.fault = r'.fault ∧ r.refusal = r'.refusal := by
  simp [RunRecord.blockPart, State.blockPart, and_assoc]

/-- An interaction that goes on does to `a` and `b` the same whatever the host has pending or has read. -/
theorem interact_blockPart_next {e : Interaction} {s t : State} (h : interact e s = .next t) :
    ∃ u, interact e s.blockPart = .next u ∧ u.blockPart = t.blockPart := by
  obtain ⟨cmd, rfl, hd, rfl⟩ | ⟨cmd, rfl, hd, rfl⟩ | ⟨cmd, d, rfl, hd, rfl⟩ | ⟨rfl, rfl⟩ | ⟨v, rfl, hv, rfl⟩ :=
    interact_next h
  · exact ⟨_, interact_command hd _, rfl⟩
  · exact ⟨_, interact_command hd _, rfl⟩
  · exact ⟨_, interact_command hd _, rfl⟩
  · exact ⟨_, rfl, rfl⟩
  · obtain ⟨w, hw, -⟩ := readPort_eq_ok.mp hv
    obtain ⟨ha, hb⟩ := accumulators_eq_some.mp hw
    exact ⟨_, interact_readResult (s := s.blockPart) ha hb, rfl⟩

/-- One interaction of a run sees the block's own part alone: `a`, `b` and the marks (10_state.md R30). -/
theorem apply_blockPart (r : RunRecord) (e : Interaction) : (r.blockPart.apply e).blockPart = (r.apply e).blockPart := by
  cases hr : r.refusal with
  | some x => rw [apply_of_refused hr, apply_of_refused (r := r.blockPart) hr]; rfl
  | none =>
    cases h : interact e r.state with
    | next t =>
      obtain ⟨u, hu, hut⟩ := interact_blockPart_next h
      rw [apply_next hr h, apply_next (r := r.blockPart) hr hu]
      exact congrArg (fun s => { r with state := s }) hut
    | fault f =>
      have hblock : interact e r.state.blockPart = .fault f := by
        rwa [interact_fault, blockPart_accumulators, ← interact_fault (s := r.state)]
      rw [apply_faulted hr h, apply_faulted (r := r.blockPart) hr hblock]
      rfl
    | refused x =>
      obtain ⟨cmd, rfl, hres, rfl⟩ := interact_refused h
      rw [apply_refused hr h, apply_refused (r := r.blockPart) hr (interact_reserved hres _)]
      rfl

/-- A whole run sees the block's own part alone. -/
theorem run_blockPart (r : RunRecord) (es : List Interaction) : (r.blockPart.run es).blockPart = (r.run es).blockPart := by
  induction es generalizing r with
  | nil => rfl
  | cons e es ih =>
    calc ((r.blockPart.apply e).run es).blockPart
        = ((r.blockPart.apply e).blockPart.run es).blockPart := (ih _).symm
      _ = ((r.apply e).blockPart.run es).blockPart := by rw [apply_blockPart]
      _ = ((r.apply e).run es).blockPart := ih _

/-- After a reset a run is, for the block, one that starts from the state right after reset (R90). -/
theorem run_reset_blockPart (s : State) (es : List Interaction) :
    ((RunRecord.start s).run (.reset :: es)).blockPart = ((RunRecord.start .reset).run es).blockPart := by
  have hreset : interact .reset s = .next s.zeroAccumulators := rfl
  rw [run_cons_of_next hreset]
  exact (run_blockPart (.start s.zeroAccumulators) es).symm

/-- What each interaction of a list keeps when it goes on, the whole run keeps. -/
theorem run_keeps {P : State → Prop} {es : List Interaction}
    (hkeep : ∀ e ∈ es, ∀ s t : State, P s → interact e s = .next t → P t) {r : RunRecord} (hr : P r.state) :
    P (r.run es).state := by
  induction es generalizing r with
  | nil => exact hr
  | cons e es ih =>
    obtain ⟨hhead, htail⟩ := List.forall_mem_cons.mp hkeep
    apply ih htail
    obtain hsame | hnext := apply_state_cases r e
    · rwa [hsame]
    · exact hhead _ _ hr hnext

/-- Neither register holds a value, as at power-up (10_state.md R22). -/
abbrev State.Undefined (s : State) : Prop := s.a = none ∧ s.b = none

/-- Registers without a value get none by an interaction other than reset and CLEAR (10_state.md R22). -/
theorem interact_keeps_undefined {e : Interaction} (hreset : e ≠ .reset) (hclear : e ≠ .command 0x0100) {s t : State}
    (hs : s.Undefined) (h : interact e s = .next t) : t.Undefined := by
  obtain ⟨cmd, rfl, hd, rfl⟩ | ⟨cmd, rfl, hd, rfl⟩ | ⟨cmd, d, rfl, hd, rfl⟩ | ⟨rfl, rfl⟩ | ⟨v, rfl, hv, rfl⟩ :=
    interact_next h
  · exact hs
  · have hcmd : cmd = 0x0100 := BitVec.eq_of_toNat_eq (decode_eq_clear_iff.mp hd)
    exact absurd (congrArg Interaction.command hcmd) hclear
  · obtain ⟨ha, -⟩ := hs
    rw [accumulators_eq_none.mpr (.inl ha)]
    exact ⟨rfl, rfl⟩
  · exact absurd rfl hreset
  · exact hs

/-- A run that ends with a register without a value has no result (10_state.md R28). -/
theorem result_eq_none_of_undefined {r : RunRecord} (h : r.state.a = none ∨ r.state.b = none) : r.result = none := by
  refine Option.eq_none_iff_forall_ne_some.mpr fun v hv => ?_
  obtain ⟨w, hw, -⟩ := readPort_eq_ok.mp (result_eq_some.mp hv).2
  cases hw.symm.trans (accumulators_eq_none.mpr h)

/-- The source's loop over two byte lists joined is its second part from where the first part ends (00_scope.md R11). -/
theorem sourceLoop_append (ds es : List Byte) (v : Nat × Nat) :
    sourceLoop (ds ++ es) v = sourceLoop es (sourceLoop ds v) := by
  induction ds generalizing v with
  | nil => rfl
  | cons d ds ih => exact ih _

/-- A checksum's commands and a read after a good run leave it good, with what the source's loop computes in the registers:
the read changes neither (10_state.md R24). -/
theorem run_checksumCommands_readResult {r : RunRecord} (hr : r.Good) (ds : List Byte) :
    ∃ (s : State) (x y : Word), r.run (checksumCommands ds ++ [.readResult]) = .start s ∧
      s.a = some x ∧ s.b = some y ∧ sourceLoop ds (0, 0) = (x.toNat, y.toNat) := by
  obtain ⟨x, y, hrun, hloop⟩ := run_checksumCommands hr ds
  have hread := run_cons_of_next (interact_readResult (s := r.state.writeAccumulators (some x, some y)) rfl rfl) []
  exact ⟨_, x, y, by rw [run_append, hrun, hread, run_nil], rfl, rfl, hloop⟩

/-- A new UPDATE shows the host the pair the atomic reduction gives (R96). -/
theorem visible_issue (p : Pipeline) (d : Word) : (p.issue d).visible = reducePair d p.visible := rfl

/-- Draining changes nothing the host sees (R96). -/
theorem visible_drain (p : Pipeline) : p.drain.visible = p.visible := rfl

/-- A run is observed exactly when it is good, as the pair it ends with (R94). -/
theorem observation_eq_some {r : RunRecord} {v : Cell × Cell} :
    r.observation = some v ↔ r.Good ∧ v = (r.state.a, r.state.b) := by
  by_cases hr : r.Good
  · rw [RunRecord.observation, if_pos hr, and_iff_right hr, Option.some_inj, eq_comm]
  · rw [RunRecord.observation, if_neg hr]
    exact iff_of_false nofun fun h => hr h.1

end Sys2Proof.Machine
end

section
/-! The statements of 70_reset_and_hazards.md, settled. -/

namespace Sys2Proof.Machine

/-- Settles O25: issuing commutes with what the host sees, so the whole list does; a drained pipeline's registers are what the
host sees. -/
theorem forwardingPipelineIsInvisible : Obligations.ForwardingPipelineIsInvisible :=
  ⟨fun _ _ => (List.foldl_hom Pipeline.visible fun p d => (visible_issue p d).symm).symm,
    fun p => ⟨visible_drain p, rfl, rfl⟩⟩

/-- Settles O31: neither register gets a value along the run, and without values the port gives no result. -/
theorem powerUpStaysUndefinedUntilResetOrClear : Obligations.PowerUpStaysUndefinedUntilResetOrClear := by
  intro es hes
  obtain ⟨ha, hb⟩ := run_keeps (P := State.Undefined) (r := .start .powerUp)
    (fun e he _ _ => interact_keeps_undefined (hes e he).1 (hes e he).2) ⟨rfl, rfl⟩
  exact ⟨ha, hb, result_eq_none_of_undefined (.inl ha)⟩

/-- Settles O37: both runs are, for the block, the run from the state right after reset; and a reset begins a checksum as a
CLEAR does. -/
theorem nothingSurvivesReset : Obligations.NothingSurvivesReset := by
  refine ⟨fun s s' es => runBlockPart_eq_iff.mp ?_, fun r es data hgood => ?_⟩
  · rw [run_reset_blockPart s, run_reset_blockPart s']
  · rw [run_append, run_reset_updateCommands]
    exact result_run_checksumCommands hgood data

/-- Settles O49: the read leaves the registers where the first sequence's loop ends. The second loop goes on from there, or
from the zeros of a CLEAR. -/
theorem forgottenClearJoinsTheSequences : Obligations.ForgottenClearJoinsTheSequences := by
  intro r first second hr
  obtain ⟨s, x, y, hfirst, ha, hb, hloop⟩ := run_checksumCommands_readResult hr first
  have hsplit (es : List Interaction) :
      r.run (checksumCommands first ++ .readResult :: es) = (RunRecord.start s).run es := by
    rw [← hfirst, ← run_append, List.append_assoc, List.singleton_append]
  rw [hsplit, hsplit]
  refine ⟨?_, result_run_checksumCommands ⟨rfl, rfl⟩ second⟩
  obtain ⟨x', y', hsecond, hloop'⟩ := run_updateCommands second ha hb
  rw [hsecond]
  refine ⟨_, result_start rfl rfl, packResult_sourceLoop ?_⟩
  rw [sourceLoop_append, hloop, hloop']

/-- Settles O39: a run is observed exactly when it is good. -/
theorem onlyGoodRunsAreObserved : Obligations.OnlyGoodRunsAreObserved := fun _ _ => observation_eq_some

end Sys2Proof.Machine
end
